-- ==== Sys2Proof/Word.lean ====
section
/-! DEFINITION. The bit-vector widths of the block. A vector of length `L` (00_scope.md rule R9) is a `BitVec L`
whose bit `i` is the vector's index `i` (rule R11), so `BitVec.toNat` is the packed form `val` of rule R11. -/

namespace Sys2Proof

/-- A command word or a response word (30_encoding.md rules R60 and R67). -/
abbrev Word := BitVec 32

/-- A 12-bit vector: a message, a syndrome, a second syndrome, or a row of B (00_scope.md rule R6). -/
abbrev Vec12 := BitVec 12

/-- A 23-bit vector: a codeword or a received vector (00_scope.md rule R6). -/
abbrev Vec23 := BitVec 23

/-- A 24-bit vector: an extended vector or an error pattern (00_scope.md rule R6). -/
abbrev Vec24 := BitVec 24

end Sys2Proof
end

