-- ==== Sys2Proof/Syntax.lean ====
section
/-! DEFINITION. The commands of the block, one constructor per row of spec/opcode_table.json, with the fields of
that row. A row is selected by `op` alone, so the must-be-zero field `z` is part of the instruction
(30_encoding.md rule R65). There are no pseudo-instructions (rule R71). -/

namespace Sys2Proof

inductive Instr where
  /-- `ENC`: `z` is `cmd[23:12]` (must be zero), `m` is `cmd[11:0]` (41_encoder.md rule R100). -/
  | enc (z : BitVec 12) (m : Vec12)
  /-- `SYN`: `w` is `cmd[23:0]` (42_syndrome.md rule R111). -/
  | syn (w : Vec24)
  /-- `DEC`: `z` is `cmd[23]` (must be zero), `r` is `cmd[22:0]` (43_decoder.md rule R120). -/
  | dec (z : BitVec 1) (r : Vec23)
deriving DecidableEq, Repr

end Sys2Proof
end

