-- ==== Sys2Proof/WellFormed.lean ====
section
/-! DEFINITION. Which instructions pass the length check of 30_encoding.md rule R65: the words that
`wellformed_match` and `wellformed_mask` of spec/opcode_table.json describe. An ill-formed instruction still decodes to
its row and executes; it ends with `Fail(InvalidLength)`. -/

namespace Sys2Proof

def Instr.wellFormed : Instr → Bool
  | .enc z _ => z == 0#12
  | .syn _ => true
  | .dec z _ => z == 0#1

end Sys2Proof
end

