-- ==== Sys2Proof/Decode.lean ====
section
/-! DEFINITION. Decoding a command word, total on every 32-bit word and rejecting a reserved `op` by name, and the
encoder, written from the same format (30_encoding.md rules R60 to R64). The block has no bytes and no fetch
(20_memory.md rules R41 and R49), so the decoder reads one whole word. -/

namespace Sys2Proof

/-- The `op` field, `cmd[31:24]` (rule R61). -/
def opOf (cmd : Word) : BitVec 8 := cmd.extractLsb' 24 8

/-- The operation codes of rule R63. -/
def opEnc : BitVec 8 := 0x01#8
def opSyn : BitVec 8 := 0x02#8
def opDec : BitVec 8 := 0x03#8

/-- Why a word is no command. -/
inductive DecodeError where
  /-- `op` is `0x00` or `0x04..0xFF` (rule R64); the field's value is kept for the reader of the error. -/
  | reservedOp (op : BitVec 8)
deriving DecidableEq, Repr

/-- The instruction a command word holds: `op` selects the row (rules R63 and R72), the operand and the must-be-zero
field are slices of `data` (rule R62). -/
def decode (cmd : Word) : Except DecodeError Instr :=
  if opOf cmd = opEnc then .ok (.enc (cmd.extractLsb' 12 12) (cmd.extractLsb' 0 12))
  else if opOf cmd = opSyn then .ok (.syn (cmd.extractLsb' 0 24))
  else if opOf cmd = opDec then .ok (.dec (cmd.extractLsb' 23 1) (cmd.extractLsb' 0 23))
  else .error (.reservedOp (opOf cmd))

/-- The command word of an instruction: the `encoding` patterns of spec/opcode_table.json, most significant field
first. -/
def encode : Instr → Word
  | .enc z m => opEnc ++ (z ++ m)
  | .syn w => opSyn ++ w
  | .dec z r => opDec ++ (z ++ r)

/-- The command word that the opcode table's numbering calls `w` on `nbits` bits: the format is one 32-bit word, and
bits above `nbits` are zero. -/
def tableWord (nbits w : Nat) : Word := BitVec.ofNat 32 (w % 2 ^ nbits)

/-- The instruction the decoder reads from a word numbered as spec/opcode_table.json numbers it. -/
def decodeTableWord (nbits w : Nat) : Option Instr :=
  match decode (tableWord nbits w) with
  | .ok i => some i
  | .error _ => none

end Sys2Proof
end

