-- ==== Sys2Proof/Config.lean ====
section
/-! DEFINITION. The parameters an implementation of the block fixes (00_scope.md rules R7 and R8). The default value
of `B_MATRIX`, and what any value of it must satisfy, stand in Machine/Matrices.lean. -/

namespace Sys2Proof

/-- Parameter `B_MATRIX` (00_scope.md rule R7): the twelve rows of the matrix B, row `j` packed as
10_state.md rule R27 packs it (column `i` is bit `i`). Of the 708 bits of B, G and H only these 144 are independent
(70_reset_and_hazards.md rule R179). -/
structure Config where
  /-- row `j` of B, `j = 0..11` -/
  bRows : Vector Vec12 12
deriving DecidableEq, Repr

/-- Parameter `LATENCY` (00_scope.md rule R8, 70_reset_and_hazards.md rule R178): the time from a command to its
response, in the integrator's unit; finite, otherwise free. The spec gives it no value and no rule depends on it, so it
has no body and no definition of the model reads it (log entry 8). -/
opaque Config.latency : Nat

end Sys2Proof
end

