-- ==== Sys2Proof/Machine/Bits.lean ====
section
/-! DEFINITION. The bit-vector and GF(2) primitives of 40_gf2_primitives.md, and the concatenation and slices of
00_scope.md rule R12. They are functions of the model, not commands. Indices inside the block are bounded by type, so
the failures of rules R82, R83 and R86 cannot arise there; the checked forms for other callers refuse by `none`. -/

namespace Sys2Proof.Machine

/-- A GF(2) matrix `r×c` (00_scope.md rule R13): `M j i` is the bit in row `j`, column `i`. -/
abbrev BitMat (r c : Nat) := Fin r → Fin c → Bool

/-- The vector whose index `i` holds `f i`: how the rules build a vector, by giving every bit
(40_gf2_primitives.md rule R83). -/
def Gf2.ofBits : (n : Nat) → (Fin n → Bool) → BitVec n
  | 0, _ => 0#0
  | n + 1, f => BitVec.cons (f (Fin.last n)) (Gf2.ofBits n fun i => f i.castSucc)

/-- A GF(2) sum: the boolean accumulator of rule R80, started at 0 and toggled by `f 0`, `f 1`, ... in order. -/
def Gf2.xorSum : (n : Nat) → (Fin n → Bool) → Bool
  | 0, _ => false
  | n + 1, f => Gf2.xorSum n (fun i => f i.castSucc) ^^ f (Fin.last n)

/-- The number of indices at which `f` is true, counted in order (rule R85). -/
def Gf2.countTrue : (n : Nat) → (Fin n → Bool) → Nat
  | 0, _ => 0
  | n + 1, f => Gf2.countTrue n (fun i => f i.castSucc) + (f (Fin.last n)).toNat

/-- `get(v, i)` (rule R82). -/
def Gf2.get {n : Nat} (v : BitVec n) (i : Fin n) : Bool := v.getLsb i

/-- `set(v, i, b)` (rule R83): the other indices keep their bits. -/
def Gf2.set {n : Nat} (v : BitVec n) (i : Fin n) (b : Bool) : BitVec n :=
  Gf2.ofBits n fun j => if j = i then b else Gf2.get v j

/-- `length(v)` (rule R84): fixed by the vector's type. -/
def Gf2.length {n : Nat} (_ : BitVec n) : Nat := n

/-- `get` for a caller whose index is not bounded by type: out of range it refuses (93_implementation_defined.md U4). -/
def Gf2.getChecked {n : Nat} (v : BitVec n) (i : Nat) : Option Bool :=
  if h : i < n then some (Gf2.get v ⟨i, h⟩) else none

/-- `set` for a caller whose index is not bounded by type (93_implementation_defined.md U4). -/
def Gf2.setChecked {n : Nat} (v : BitVec n) (i : Nat) (b : Bool) : Option (BitVec n) :=
  if h : i < n then some (Gf2.set v ⟨i, h⟩ b) else none

/-- `hammingWeight(v)`, written `wt(v)` (rule R85). -/
def Gf2.wt {n : Nat} (v : BitVec n) : Nat := Gf2.countTrue n fun i => Gf2.get v i

/-- `xorWith(a, b)` (rule R86). -/
def Gf2.xorWith {n : Nat} (a b : BitVec n) : BitVec n := a ^^^ b

/-- `xorWith` for a caller whose lengths may differ: then it refuses, with no kind named
(93_implementation_defined.md U5). -/
def Gf2.xorChecked {n m : Nat} (a : BitVec n) (b : BitVec m) : Option (BitVec n) :=
  if h : m = n then some (Gf2.xorWith a (b.cast h)) else none

/-- `v × M` (rule R88): bit `i` is the GF(2) sum over `j` of `v[j] AND M[j,i]`. -/
def Gf2.vecmat {r c : Nat} (v : BitVec r) (M : BitMat r c) : BitVec c :=
  Gf2.ofBits c fun i => Gf2.xorSum r fun j => Gf2.get v j && M j i

/-- Row `j` of a matrix as a vector (00_scope.md rule R13). -/
def Gf2.row {r c : Nat} (M : BitMat r c) (j : Fin r) : BitVec c := Gf2.ofBits c (M j)

/-- `[a | b]` (00_scope.md rule R12): `a` on the low indices, `b` after it. -/
def Gf2.cat {n m : Nat} (a : BitVec n) (b : BitVec m) : BitVec (m + n) := b ++ a

/-- `0^n`. -/
def Gf2.zeros (n : Nat) : BitVec n := 0#n

/-- `e_k`, the 12-bit unit vector with its one true bit at `k`. -/
def Gf2.unit (k : Fin 12) : Vec12 := Gf2.ofBits 12 fun i => decide (i = k)

/-- The low half `x[0..11]` of a 24-bit vector. -/
def Gf2.low (x : Vec24) : Vec12 := x.extractLsb' 0 12

/-- The high half `x[12..23]` of a 24-bit vector, re-indexed from 0. -/
def Gf2.high (x : Vec24) : Vec12 := x.extractLsb' 12 12

end Sys2Proof.Machine
end

