-- ==== Sys2Proof/Machine/Matrices.lean ====
section
/-! DEFINITION. The constant matrices I, B, G and H (10_state.md rules R26 to R29): `buildMatrices()` evaluated as
definitions, with B the parameter (70_reset_and_hazards.md rule R172); the default of `B_MATRIX`; and what any value of
B must satisfy (10_state.md rule R34). -/

namespace Sys2Proof.Machine

/-- `I12[j,i]` (rule R26). -/
def identity12 : BitMat 12 12 := fun j i => decide (i = j)

/-- `B[j,i]` of a configuration (rule R27). -/
def matB (cfg : Config) : BitMat 12 12 := fun j i => Gf2.get (cfg.bRows.get j) i

/-- `G = [I | B columns 0..10]`, 12×23 (rule R28). -/
def matG (cfg : Config) : BitMat 12 23 := fun j i =>
  if h : i.val < 12 then identity12 j ⟨i.val, h⟩ else matB cfg j ⟨i.val - 12, by omega⟩

/-- `H = [I ; B]`, 24×12 (rule R29). -/
def matH (cfg : Config) : BitMat 24 12 := fun j i =>
  if h : j.val < 12 then identity12 ⟨j.val, h⟩ i else matB cfg ⟨j.val - 12, by omega⟩ i

/-- Row `k` of B as a vector, `B[k]`. -/
def rowB (cfg : Config) (k : Fin 12) : Vec12 := Gf2.row (matB cfg) k

/-- The default of `B_MATRIX`: the packed column of rule R27's table. The spec takes it from general knowledge
(93_implementation_defined.md K1; log entry 2). -/
def defaultConfig : Config where
  bRows := #v[0xA3B#12, 0xD1D#12, 0xE8E#12, 0xB47#12, 0xDA3#12, 0xED1#12,
              0xF68#12, 0xBB4#12, 0x9DA#12, 0x8ED#12, 0xC76#12, 0x7FF#12]

/-- The codeword `[m | m × B]` of the 24-bit extended code (rule R34). -/
def extCodeword (cfg : Config) (m : Vec12) : Vec24 := Gf2.cat m (Gf2.vecmat m (matB cfg))

/-- What any value of B must satisfy (rule R34). Clause (a), 12 rows by 12 columns, is the type of `Config`. -/
def meetsR34 (cfg : Config) : Prop :=
  -- (b) B × B = I12
  (∀ j i : Fin 12, Gf2.xorSum 12 (fun k => matB cfg j k && matB cfg k i) = identity12 j i) ∧
  -- (c) every [m | m × B] has even weight
  (∀ m : Vec12, Gf2.wt (extCodeword cfg m) % 2 = 0) ∧
  -- (d) the 24-bit code has minimum distance 8
  (∀ m m' : Vec12, m ≠ m' → 8 ≤ Gf2.wt (Gf2.xorWith (extCodeword cfg m) (extCodeword cfg m'))) ∧
  (∃ m m' : Vec12, m ≠ m' ∧ Gf2.wt (Gf2.xorWith (extCodeword cfg m) (extCodeword cfg m')) = 8)

end Sys2Proof.Machine
end

