-- ==== Sys2Proof/Machine/State.lean ====
section
/-! DEFINITION. The state of the model and the ways a step can end. The block itself keeps nothing from one operation
to the next (10_state.md rules R20 to R24 and R32): no register, program counter, flag, control register or memory.
What `State` holds beside that is the argument of the step (the parameter B_MATRIX, rule R17 of 00_scope.md), the host
agent's commands still to be issued (rule R16), and the list of transactions, which is the only observation
(rule R18). -/

namespace Sys2Proof.Machine

/-- The failure kinds (00_scope.md rule R15, 60_exceptions.md rule R151). -/
inductive FailKind where
  /-- `ENC`, `DEC`: a 1 bit above the operand's width (60_exceptions.md rule R152). -/
  | invalidLength
  /-- The host's text conversion only; no command raises it (60_exceptions.md rule R153). -/
  | invalidFormat
  /-- `DEC`: the locator found no case (60_exceptions.md rule R154). -/
  | decodingFailure
  /-- A command whose `op` is reserved (60_exceptions.md rule R155). -/
  | illegalOp
deriving DecidableEq, Repr

/-- The outcome of an operation (00_scope.md rule R15); `fail` carries no value. -/
inductive OpOutcome (α : Type) where
  | ok (value : α)
  | fail (kind : FailKind)
deriving DecidableEq, Repr

/-- One transaction of a run (00_scope.md rule R18). -/
structure Transaction where
  cmd : Word
  rsp : Word
deriving DecidableEq, Repr

/-- The machine. No field is state of the block: see the file's header. -/
structure State where
  /-- The parameter `B_MATRIX` (00_scope.md rules R7 and R17): the part at hand. No operation writes it
  (10_state.md rule R31; log entry 1). -/
  cfg : Config
  /-- The commands the host has chosen and not yet issued, the next one first (00_scope.md rules R16 and R19;
  log entry 3). -/
  pending : List Word
  /-- The transactions so far, oldest first: the model's bookkeeping (00_scope.md rule R18, 10_state.md rule R20). -/
  history : List Transaction
deriving DecidableEq, Repr

/-- How a step can stop the machine. -/
inductive Fault where
  /-- Raised by `step` alone, when the host presents no command: the spec defines no step there
  (70_reset_and_hazards.md rule R173, 93_implementation_defined.md U10, treatment `stuck`). Safe: the model stops and
  claims nothing of `rsp`. -/
  | noCommand
deriving DecidableEq, Repr

/-- How a step can decline an instruction. -/
inductive Refusal where
  /-- Raised by a rejected arm of `exec`, for an instruction without a meaning; no arm is one now. Safe. -/
  | notModelled (mnemonic : String)
deriving DecidableEq, Repr

/-- The machine right after reset (10_state.md rule R33, 70_reset_and_hazards.md rules R170 and R171): there is no
register to reset, the constants hold their values (B at the spec's default, log entry 2), no command has been presented
and no transaction has happened. -/
def State.reset : State where
  cfg := defaultConfig
  pending := []
  history := []

end Sys2Proof.Machine
end

