-- ==== Sys2Proof/Machine/Flags.lean ====
section
/-! DEFINITION. The conditions the block computes. None is a stored flag (10_state.md rule R23): the status code of a
response (30_encoding.md rule R68), and the weight comparisons and the parity that steer `DEC`
(40_gf2_primitives.md rule R81). -/

namespace Sys2Proof.Machine

/-- The status code of a failure kind (rule R68). -/
def FailKind.status : FailKind → BitVec 8
  | .invalidLength => 0x01#8
  | .invalidFormat => 0x02#8
  | .decodingFailure => 0x03#8
  | .illegalOp => 0x04#8

/-- The status code of `Ok` (rule R68). -/
def statusOk : BitVec 8 := 0x00#8

/-- The whole-syndrome test `wt(v) <= 3` of cases A and C1 (00_scope.md rule R6). -/
def fitsDirect (v : Vec12) : Bool := decide (Gf2.wt v ≤ 3)

/-- The adjusted-syndrome test `wt(v) <= 2` of cases B and C2 (00_scope.md rule R6). -/
def fitsRow (v : Vec12) : Bool := decide (Gf2.wt v ≤ 2)

/-- The bit the decoder appends: 1 when the received weight is even, 0 when it is odd (43_decoder.md rule R121;
90_conflicts.md C1). -/
def appendedBit (r : Vec23) : Bool := decide (Gf2.wt r % 2 = 0)

end Sys2Proof.Machine
end

