-- ==== Sys2Proof/Machine/Operands.lean ====
section
/-! DEFINITION. The operand check and the result assembly: the must-be-zero test (30_encoding.md rule R65), the
zero-extension of a result (rule R69) and the response word (rule R67). The slices of rule R62 are taken by `decode`. -/

namespace Sys2Proof.Machine

/-- The must-be-zero test: the operand fits its length (rule R65, 92_eei_decisions.md D7). -/
def fieldIsZero {n : Nat} (z : BitVec n) : Bool := z == 0#n

/-- A value zero-extended to the 24 bits of the `result` field (rule R69). -/
def resultField {n : Nat} (v : BitVec n) : Vec24 := v.setWidth 24

/-- The response of an operation that completes (rules R67 and R69). -/
def okWord (result : Vec24) : Word := statusOk ++ result

/-- The response that signals a failure: its status, and a zero `result` that carries nothing (rule R67;
60_exceptions.md rule R151). -/
def failWord (kind : FailKind) : Word := kind.status ++ 0#24

/-- The response word of an outcome (rule R67). -/
def rspWord : OpOutcome Vec24 → Word
  | .ok result => okWord result
  | .fail kind => failWord kind

end Sys2Proof.Machine
end

