-- ==== Sys2Proof/Machine/Ops.lean ====
section
/-! DEFINITION. The operations over the state that the instructions and the step share: taking the next command,
answering it, signalling a failure, and what the outside world can do. -/

namespace Sys2Proof.Machine

/-- The next command of the host and the state once it is taken, or nothing when no command is presented. -/
def State.takeCommand (s : State) : Option (Word × State) :=
  match s.pending with
  | [] => none
  | cmd :: rest => some (cmd, { s with pending := rest })

/-- One transaction becomes part of the run (00_scope.md rule R18). -/
def State.record (s : State) (cmd rsp : Word) : State :=
  { s with history := s.history ++ [{ cmd := cmd, rsp := rsp }] }

/-- Signalling a failure, the block's only exception entry (60_exceptions.md rule R157): nothing is saved, no mode is
changed, control goes nowhere; the response word with the kind's status is the whole event. There is no return from it
and nothing to restore (rule R158). -/
def State.signal (s : State) (cmd : Word) (kind : FailKind) : State := s.record cmd (failWord kind)

/-- A command is answered with the outcome of its operation (30_encoding.md rule R67). -/
def State.answer (s : State) (cmd : Word) : OpOutcome Vec24 → State
  | .ok result => s.record cmd (okWord result)
  | .fail kind => s.signal cmd kind

/-- The host presents one more command, after those it has already chosen (00_scope.md rule R19). -/
def State.present (s : State) (cmd : Word) : State := { s with pending := s.pending ++ [cmd] }

/-- The reset input, if an implementation has one: no architectural effect (70_reset_and_hazards.md rule R170,
93_implementation_defined.md U17). A power cycle is no more (60_exceptions.md rule R167). -/
def State.assertReset (s : State) : State := s

/-- A command whose `op` selects no operation ends with `IllegalOp`, whatever its data (30_encoding.md rule R64). -/
def State.answerReserved (s : State) (cmd : Word) : State := s.signal cmd .illegalOp

end Sys2Proof.Machine
end

