-- ==== Sys2Proof/Machine/Syndrome.lean ====
section
/-! DEFINITION. The syndrome calculator unit, Golay_syndrome_calculator, and the meaning of `SYN`
(42_syndrome.md). -/

namespace Sys2Proof.Machine

/-- `syndrome(w) = w × H` (rule R110); nothing is appended to `w`. -/
def Golay.syndrome (cfg : Config) (w : Vec24) : Vec12 := Gf2.vecmat w (matH cfg)

/-- `syn2(s) = s × B`, the second syndrome, used by `DEC` only (rule R112). -/
def Golay.syn2 (cfg : Config) (s : Vec12) : Vec12 := Gf2.vecmat s (matB cfg)

/-- The outcome of `SYN` (rule R111): every operand is legal. -/
def synOutcome (cfg : Config) (w : Vec24) : OpOutcome Vec24 := .ok (resultField (Golay.syndrome cfg w))

/-- `SYN` (rule R111). -/
def execSyn (w : Vec24) (s : State) : Host.Outcome State Fault Refusal :=
  .next (s.answer (Sys2Proof.encode (.syn w)) (synOutcome s.cfg w))

end Sys2Proof.Machine
end

