-- ==== Sys2Proof/Machine/Decoder.lean ====
section
/-! DEFINITION. The decoder unit, Golay_decoder, and the meaning of `DEC` (43_decoder.md). `locate` and `decode` are
rule R130, with the stage that produced the error pattern kept beside it so that the intermediate values of
95_test_vectors.md can be checked; the stage does not reach the interface (rule R132). -/

namespace Sys2Proof.Machine

/-- The stage of the locator that gave the error pattern: cases A, B (with its row), C1, C2 (with its row). -/
inductive Stage where
  | a
  | b (row : Fin 12)
  | c1
  | c2 (row : Fin 12)
deriving DecidableEq, Repr

/-- A located error: the stage and the 24-bit error pattern `u`. -/
structure Located where
  stage : Stage
  u : Vec24
deriving DecidableEq, Repr

/-- The rows of B in the order they are tried, 0 to 11 (rule R131). -/
def scanOrder : List (Fin 12) := [0, 1, 2, 3, 4, 5, 6, 7, 8, 9, 10, 11]

/-- An ordered row scan: the first row that passes the test (rule R131). -/
def firstRow (test : Fin 12 → Bool) : Option (Fin 12) := scanOrder.find? test

/-- `[s | 0^12]`, the pattern of case A (rule R123). -/
def patternA (s : Vec12) : Vec24 := Gf2.cat s (Gf2.zeros 12)

/-- `[s XOR B[k] | e_k]`, the pattern of case B at row `k` (rule R124). -/
def patternB (cfg : Config) (s : Vec12) (k : Fin 12) : Vec24 := Gf2.cat (Gf2.xorWith s (rowB cfg k)) (Gf2.unit k)

/-- `[0^12 | s2]`, the pattern of case C1 (rule R125). -/
def patternC1 (s2 : Vec12) : Vec24 := Gf2.cat (Gf2.zeros 12) s2

/-- `[e_k | s2 XOR B[k]]`, the pattern of case C2 at row `k` (rule R126). -/
def patternC2 (cfg : Config) (s2 : Vec12) (k : Fin 12) : Vec24 := Gf2.cat (Gf2.unit k) (Gf2.xorWith s2 (rowB cfg k))

/-- The row scan of case B on `s`, and of case C2 on `s2`. -/
def scanRows (cfg : Config) (x : Vec12) : Option (Fin 12) := firstRow fun k => fitsRow (Gf2.xorWith x (rowB cfg k))

/-- Case C of the locator (rules R125 and R126), entered when cases A and B did not apply. -/
def locateSecond (cfg : Config) (s2 : Vec12) : Option Located :=
  if fitsDirect s2 then some { stage := .c1, u := patternC1 s2 }
  else match scanRows cfg s2 with
    | some k => some { stage := .c2 k, u := patternC2 cfg s2 k }
    | none => none

/-- `locate(s)` (rule R130): cases A, B, C1, C2 in this order, or no pattern. -/
def Golay.locate (cfg : Config) (s : Vec12) : Option Located :=
  if fitsDirect s then some { stage := .a, u := patternA s }
  else match scanRows cfg s with
    | some k => some { stage := .b k, u := patternB cfg s k }
    | none => locateSecond cfg (Golay.syn2 cfg s)

/-- Step 1: `w = [r | p]` (rule R121). -/
def Golay.extend (r : Vec23) : Vec24 := Gf2.cat r (BitVec.ofBool (appendedBit r))

/-- Steps 6 and 7: `v = w XOR u`, and the message is its first 12 bits (rules R128 and R129). -/
def Golay.correct (w u : Vec24) : Vec12 := Gf2.low (Gf2.xorWith w u)

/-- `decode(r)` (rule R130). -/
def Golay.decode (cfg : Config) (r : Vec23) : OpOutcome Vec12 :=
  match Golay.locate cfg (Golay.syndrome cfg (Golay.extend r)) with
  | none => .fail .decodingFailure
  | some l => .ok (Golay.correct (Golay.extend r) l.u)

/-- The result of `decode` as the outcome of the operation, the message zero-extended (30_encoding.md rule R69). -/
def messageOutcome : OpOutcome Vec12 → OpOutcome Vec24
  | .ok msg => .ok (resultField msg)
  | .fail kind => .fail kind

/-- The outcome of `DEC` (rule R120): the length check first, then `decode`. -/
def decOutcome (cfg : Config) (z : BitVec 1) (r : Vec23) : OpOutcome Vec24 :=
  if fieldIsZero z then messageOutcome (Golay.decode cfg r) else .fail .invalidLength

/-- `DEC` (rule R120). -/
def execDec (z : BitVec 1) (r : Vec23) (s : State) : Host.Outcome State Fault Refusal :=
  .next (s.answer (Sys2Proof.encode (.dec z r)) (decOutcome s.cfg z r))

end Sys2Proof.Machine
end

