-- ==== Sys2Proof/Machine/Encoder.lean ====
section
/-! DEFINITION. The encoder unit, Golay_encoder, and the meaning of `ENC` (41_encoder.md). -/

namespace Sys2Proof.Machine

/-- `encode(m) = m × G` (rule R101). -/
def Golay.encode (cfg : Config) (m : Vec12) : Vec23 := Gf2.vecmat m (matG cfg)

/-- The outcome of `ENC` (rule R100): the length check first, then the codeword, zero-extended. -/
def encOutcome (cfg : Config) (z : BitVec 12) (m : Vec12) : OpOutcome Vec24 :=
  if fieldIsZero z then .ok (resultField (Golay.encode cfg m)) else .fail .invalidLength

/-- `ENC` (rule R100). -/
def execEnc (z : BitVec 12) (m : Vec12) (s : State) : Host.Outcome State Fault Refusal :=
  .next (s.answer (Sys2Proof.encode (.enc z m)) (encOutcome s.cfg z m))

end Sys2Proof.Machine
end

