-- ==== Sys2Proof/Machine/Dispatch.lean ====
section
/-! DEFINITION. What each instruction does: one arm per constructor, one call of its meaning. -/

namespace Sys2Proof.Machine

def exec (i : Instr) (s : State) : Host.Outcome State Fault Refusal :=
  match i with
  | .enc z m => Sys2Proof.Machine.execEnc z m s
  | .syn w => Sys2Proof.Machine.execSyn w s
  | .dec z r => Sys2Proof.Machine.execDec z r s

end Sys2Proof.Machine
end

