-- ==== Sys2Proof/Machine/Step.lean ====
section
/-! DEFINITION. One step: one transaction (00_scope.md rule R17). The command is taken from the host, decoded by `op`
first, and executed; a reserved `op` is answered with `IllegalOp` (30_encoding.md rule R72, 60_exceptions.md
rule R156). -/

namespace Sys2Proof.Machine

def step (s : State) : Host.Outcome State Fault Refusal :=
  match s.takeCommand with
  | none => .fault .noCommand
  | some (cmd, taken) =>
    match decode cmd with
    | .ok i => exec i taken
    | .error _ => .next (taken.answerReserved cmd)

/-- The host presents the command word numbered `w` on `nbits` bits as its very next command; commands it had already
chosen stay behind it (log entry 4). -/
def State.withFetchWord (s : State) (nbits w : Nat) : State :=
  { s with pending := tableWord nbits w :: s.pending }

end Sys2Proof.Machine
end

