-- ==== Sys2Proof/Machine/Text.lean ====
section
/-! DEFINITION. The text form of a vector (00_scope.md rule R10) and its two conversions
(40_gf2_primitives.md rule R89). They run in the host, not in the block: no command takes text. A text is a list of
characters. -/

namespace Sys2Proof.Machine

/-- The character of a bit. -/
def bitChar (b : Bool) : Char := if b then '1' else '0'

/-- A character the text form allows. -/
def isBitChar (c : Char) : Bool := c == '0' || c == '1'

/-- `toBitString(v)`: `v[0]` leftmost (rules R10 and R89). -/
def toBitString {n : Nat} (v : BitVec n) : List Char := (List.finRange n).map fun i => bitChar (Gf2.get v i)

/-- `fromBitString(t)`: a text of `L` characters gives a vector of length `L`; any other character is rejected with
`InvalidFormat` (rule R89, 60_exceptions.md rule R153). -/
def fromBitString (t : List Char) : OpOutcome (BitVec t.length) :=
  if t.all isBitChar then .ok (Gf2.ofBits t.length fun i => t.get i == '1') else .fail .invalidFormat

end Sys2Proof.Machine
end

