-- ==== Sys2Proof/Machine/Assembler.lean ====
section
/-! DEFINITION. The assembler syntax of 30_encoding.md rule R70, which runs in the host: one line of text to a command
word, an instruction to its text, and the text of an outcome. What the rule's prose leaves open (spacing, the case of a
hexadecimal digit, a value too large for the operand) is log entry 7. -/

namespace Sys2Proof.Machine

/-- Why a line is no command. -/
inductive AsmError where
  /-- The line is not `MNEMONIC operand`, with or without `name =` before it. -/
  | malformedLine
  /-- The mnemonic is none of `ENC`, `SYN`, `DEC`, `.word` (mnemonics are upper case). -/
  | unknownMnemonic
  /-- The operand is neither form of rule R70, or does not have the operand's length. -/
  | badOperand
deriving DecidableEq, Repr

/-- The quote around a bit string. -/
def quoteChar : Char := Char.ofNat 39

/-- The hexadecimal digits in order. -/
def hexDigits : List Char := ['0', '1', '2', '3', '4', '5', '6', '7', '8', '9', 'A', 'B', 'C', 'D', 'E', 'F']

/-- Reading hexadecimal digits, the most significant first, onto `acc`. -/
def hexValueFrom (acc : Nat) : List Char → Option Nat
  | [] => some acc
  | c :: cs =>
    match hexDigits.idxOf? c with
    | some d => hexValueFrom (acc * 16 + d) cs
    | none => none

/-- The value of a non-empty list of hexadecimal digits. -/
def hexValue (cs : List Char) : Option Nat := if cs = [] then none else hexValueFrom 0 cs

/-- The low `k` hexadecimal digits of `v`, the most significant first. -/
def hexText : Nat → Nat → List Char
  | 0, _ => []
  | k + 1, v => hexText k (v / 16) ++ [hexDigits.getD (v % 16) '0']

/-- An operand of length `n`, packed (`0x...`) or as a quoted bit string (rule R70). -/
def vecOperand (n : Nat) (t : List Char) : Except AsmError (BitVec n) :=
  match t with
  | [] => .error .badOperand
  | c :: cs =>
    if c = quoteChar then
      match cs.getLast? with
      | none => .error .badOperand
      | some q =>
        if q ≠ quoteChar then .error .badOperand
        else
          match fromBitString cs.dropLast with
          | .fail _ => .error .badOperand
          | .ok v => if h : cs.dropLast.length = n then .ok (v.cast h) else .error .badOperand
    else if t.take 2 = ['0', 'x'] then
      match hexValue (t.drop 2) with
      | none => .error .badOperand
      | some v => if v < 2 ^ n then .ok (BitVec.ofNat n v) else .error .badOperand
    else .error .badOperand

/-- Splitting at every blank. -/
def splitBlanks : List Char → List (List Char)
  | [] => [[]]
  | c :: cs =>
    if c = ' ' then [] :: splitBlanks cs
    else match splitBlanks cs with
      | [] => [[c]]
      | t :: ts => (c :: t) :: ts

/-- The tokens of a line, its comment (from `;` on) left out. -/
def tokens (line : List Char) : List (List Char) :=
  (splitBlanks (line.takeWhile fun c => c != ';')).filter fun t => !t.isEmpty

/-- The mnemonics of rule R70. -/
def textEnc : List Char := ['E', 'N', 'C']
def textSyn : List Char := ['S', 'Y', 'N']
def textDec : List Char := ['D', 'E', 'C']
def textWord : List Char := ['.', 'w', 'o', 'r', 'd']

/-- `MNEMONIC operand` (rule R70): the command word. -/
def assembleCommand (mnemonic operand : List Char) : Except AsmError Word :=
  if mnemonic = textEnc then (vecOperand 12 operand).map fun m => encode (.enc 0#12 m)
  else if mnemonic = textSyn then (vecOperand 24 operand).map fun w => encode (.syn w)
  else if mnemonic = textDec then (vecOperand 23 operand).map fun r => encode (.dec 0#1 r)
  else if mnemonic = textWord then vecOperand 32 operand
  else .error .unknownMnemonic

/-- One command line, with or without a name for the host's later use, `c = ENC 0x001` (rule R70). -/
def assemble (line : List Char) : Except AsmError Word :=
  match tokens line with
  | [mnemonic, operand] => assembleCommand mnemonic operand
  | [_, eq, mnemonic, operand] => if eq = ['='] then assembleCommand mnemonic operand else .error .malformedLine
  | _ => .error .malformedLine

/-- A quoted bit string. -/
def quoted {n : Nat} (v : BitVec n) : List Char := quoteChar :: (toBitString v ++ [quoteChar])

/-- An instruction as text: its mnemonic and operand, or `.word` when it is ill-formed (rule R70). -/
def asmText (i : Instr) : List Char :=
  if i.wellFormed then
    match i with
    | .enc _ m => textEnc ++ [' '] ++ quoted m
    | .syn w => textSyn ++ [' '] ++ quoted w
    | .dec _ r => textDec ++ [' '] ++ quoted r
  else textWord ++ [' ', '0', 'x'] ++ hexText 8 (encode i).toNat

/-- The name of a failure kind. -/
def FailKind.text : FailKind → String
  | .invalidLength => "InvalidLength"
  | .invalidFormat => "InvalidFormat"
  | .decodingFailure => "DecodingFailure"
  | .illegalOp => "IllegalOp"

/-- An outcome as text, `Ok(0x...)` on `digits` hexadecimal digits or `Fail(Kind)` (rule R70). -/
def outcomeText (digits : Nat) : OpOutcome Vec24 → String
  | .ok v => "Ok(0x" ++ String.ofList (hexText digits v.toNat) ++ ")"
  | .fail kind => "Fail(" ++ kind.text ++ ")"

end Sys2Proof.Machine
end

