-- ==== Sys2Proof/Machine/Environment.lean ====
section
/-! DEFINITION. The agents around the block (00_scope.md rules R5, R16 and R19): the channel, the host's own
conversions, and a host that chooses each command from the transactions it has seen. None of it is called by the
step. -/

namespace Sys2Proof.Machine

/-- The channel (rule R5): any 23-bit error vector `e`, a free input, XORed onto a codeword. -/
def channel (c e : Vec23) : Vec23 := Gf2.xorWith c e

/-- A byte as a message for a host that follows the spec's packing (20_memory.md rule R41). -/
def byteMessage (b : BitVec 8) : Vec12 := Gf2.cat b (Gf2.zeros 4)

/-- The even-parity extension a host appends to check a 23-bit vector with `SYN` (42_syndrome.md rule R111); the
opposite bit to the one `DEC` appends. -/
def evenExtend (x : Vec23) : Vec24 := Gf2.cat x (BitVec.ofBool (decide (Gf2.wt x % 2 = 1)))

/-- A run against a host (00_scope.md rules R16, R18 and R19): from the transactions so far the host chooses its next
command, any 32-bit word, or ends the run. -/
def interact (host : List Transaction → Option Word) : Nat → State → Host.Outcome State Fault Refusal
  | 0, s => .next s
  | n + 1, s =>
    match host s.history with
    | none => .next s
    | some cmd =>
      match step (s.present cmd) with
      | .next t => interact host n t
      | .fault r => .fault r
      | .refused r => .refused r

end Sys2Proof.Machine
end

