-- ==== Sys2Proof/Machine/System.lean ====
section
/-! DEFINITION. Several instances of the block side by side (20_memory.md rules R46 and R52, 60_exceptions.md
rule R165): they have no identifiers, share nothing that can change, and do not communicate. A schedule says which
instance takes a step next. -/

namespace Sys2Proof.Machine

/-- The state after one step, or the same state where the machine has no step. -/
def State.advance (s : State) : State :=
  match step s with
  | .next t => t
  | .fault _ => s
  | .refused _ => s

/-- `n` such steps. -/
def State.advanceBy (s : State) : Nat → State
  | 0 => s
  | n + 1 => s.advance.advanceBy n

/-- The instance at position `k` takes a step; a position without an instance changes nothing. -/
def systemStep (instances : List State) (k : Nat) : List State := instances.modify k State.advance

/-- The instances after a schedule of steps. -/
def systemRun (instances : List State) (schedule : List Nat) : List State := schedule.foldl systemStep instances

end Sys2Proof.Machine
end

