-- ==== Sys2Proof/Machine/Respond.lean ====
section
/-! DEFINITION. The block as the pure function from a command word to a response word (00_scope.md rule R17,
10_state.md rule R25). `exec` and `step` do not call it; that they agree with it is stated and proved apart. -/

namespace Sys2Proof.Machine

/-- `exec : Operation -> Outcome` of 00_scope.md rule R17. -/
def outcomeOf (cfg : Config) : Instr → OpOutcome Vec24
  | .enc z m => encOutcome cfg z m
  | .syn w => synOutcome cfg w
  | .dec z r => decOutcome cfg z r

/-- `step : Cmd32 -> Rsp32` of 00_scope.md rule R17: total on every command word. -/
def respond (cfg : Config) (cmd : Word) : Word :=
  match decode cmd with
  | .ok i => rspWord (outcomeOf cfg i)
  | .error _ => rspWord (.fail .illegalOp)

end Sys2Proof.Machine
end

