-- ==== Sys2Proof/Safety.lean ====
section
/-! DEFINITION. What counts as a safe run of the block, in the terms the claims use. -/

namespace Sys2Proof.Machine

/-- A step that stops the machine in no way. -/
def StepAnswers (s : State) : Prop := ∃ t, step s = .next t

/-- Every command the host has chosen is answered: no fault and no refusal while one is pending
(00_scope.md rule R18, 70_reset_and_hazards.md rule R177). -/
def Safe (s : State) : Prop := ∀ n, n ≤ s.pending.length → ∃ t, Sys2Proof.core.run n s = .next t

/-- Every transaction of the history is the block's function applied to its own command and to nothing else
(20_memory.md rule R46). -/
def HistoryAnswered (s : State) : Prop := ∀ t ∈ s.history, t.rsp = respond s.cfg t.cmd

end Sys2Proof.Machine
end

