-- ==== Sys2Proof/Certificates/Slice0/Reference.lean ====
section
/-! DEFINITION. What the obligations compare the machine with: the rules once more in a form that shares no definition
with the model. Counting is by finite sets, and the operations are written on packed integers, the second form that
40_gf2_primitives.md rule R88, 43_decoder.md rule R130 and 30_encoding.md rule R72 give. -/

namespace Sys2Proof.Reference

/-- A GF(2) sum of bits is 1 exactly when an odd number of them are 1 (40_gf2_primitives.md rule R80). -/
def oddMany {n : Nat} (f : Fin n → Bool) : Bool :=
  decide ((Finset.univ.filter fun j => f j = true).card % 2 = 1)

/-- The rows of B as packed integers; rows beyond 11 do not exist and are 0. -/
def packedB (cfg : Config) (k : Nat) : Nat := (cfg.bRows.toList.map BitVec.toNat).getD k 0

/-- `val(G[j])`: `e_j` below columns 0..10 of `B[j]` (10_state.md rule R28). -/
def packedG (cfg : Config) (j : Nat) : Nat := 2 ^ j + 2 ^ 12 * (packedB cfg j % 2 ^ 11)

/-- `val(H[j])`: `e_j`, then the rows of B (10_state.md rule R29). -/
def packedH (cfg : Config) (j : Nat) : Nat := if j < 12 then 2 ^ j else packedB cfg (j - 12)

/-- A product on packed values: the XOR of the rows whose bit of `v` is 1 (40_gf2_primitives.md rule R88). -/
def packedProduct (rows : Nat → Nat) (r v : Nat) : Nat :=
  (List.range r).foldl (fun acc j => if v.testBit j then acc ^^^ rows j else acc) 0

/-- The population count of the low `n` bits (40_gf2_primitives.md rule R85). -/
def popCount (n v : Nat) : Nat := ((List.range n).filter fun i => v.testBit i).length

/-- The first row `k` of B with `wt(x XOR B[k]) <= 2`. -/
def packedScan (cfg : Config) (x : Nat) : Option Nat :=
  (List.range 12).find? fun k => decide (popCount 12 (x ^^^ packedB cfg k) ≤ 2)

/-- `locate` on packed values (43_decoder.md rule R130). -/
def packedLocate (cfg : Config) (s : Nat) : Option Nat :=
  if popCount 12 s ≤ 3 then some s
  else match packedScan cfg s with
    | some k => some (2 ^ (12 + k) + (s ^^^ packedB cfg k))
    | none =>
      let s2 := packedProduct (packedB cfg) 12 s
      if popCount 12 s2 ≤ 3 then some (2 ^ 12 * s2)
      else match packedScan cfg s2 with
        | some k => some (2 ^ k + 2 ^ 12 * (s2 ^^^ packedB cfg k))
        | none => none

/-- The vector `[r | p]` on packed values, `p` 1 when the weight of `r` is even (43_decoder.md rule R121). -/
def packedExtend (r : Nat) : Nat := if popCount 23 r % 2 = 0 then 2 ^ 23 + r else r

/-- `decode` on packed values (43_decoder.md rule R130). -/
def packedDecode (cfg : Config) (r : Nat) : Option Nat :=
  (packedLocate cfg (packedProduct (packedH cfg) 24 (packedExtend r))).map fun u => (packedExtend r ^^^ u) % 2 ^ 12

/-- `rsp(status, result) = (status << 24) | result` (30_encoding.md rule R72). -/
def packedRsp (status result : Nat) : Nat := status <<< 24 ||| result

/-- The `op` and `data` fields of a packed command word (30_encoding.md rule R61). -/
def packedOp (cmd : Nat) : Nat := cmd / 2 ^ 24
def packedData (cmd : Nat) : Nat := cmd % 2 ^ 24

/-- The `DEC` arm of rule R72, once the length check has passed. -/
def packedDecResponse : Option Nat → Nat
  | some msg => packedRsp 0x00 msg
  | none => packedRsp 0x03 0

/-- `step(cmd)` of 30_encoding.md rule R72 on packed values. -/
def packedStep (cfg : Config) (cmd : Nat) : Nat :=
  if packedOp cmd = 0x01 then
    if packedData cmd / 2 ^ 12 ≠ 0 then packedRsp 0x01 0
    else packedRsp 0x00 (packedProduct (packedG cfg) 12 (packedData cmd))
  else if packedOp cmd = 0x02 then packedRsp 0x00 (packedProduct (packedH cfg) 24 (packedData cmd))
  else if packedOp cmd = 0x03 then
    if packedData cmd / 2 ^ 23 ≠ 0 then packedRsp 0x01 0
    else packedDecResponse (packedDecode cfg (packedData cmd))
  else packedRsp 0x04 0

/-- The response of rule R72 as a word. -/
def wordStep (cfg : Config) (cmd : Word) : Word := BitVec.ofNat 32 (packedStep cfg cmd.toNat)

/-- The syndromes the locator answers with a pattern of a given kind of stage, counted over all 4096. -/
def countLocated (cfg : Config) (kind : Option Machine.Located → Bool) : Nat :=
  (List.range 4096).countP fun s => kind (Machine.Golay.locate cfg (BitVec.ofNat 12 s))

/-- The conditions of the four cases on a syndrome, each with the pattern it would give, in the order they are tried
(43_decoder.md rules R123 to R126); a scan contributes every row that passes, not only the first. -/
def candidates (cfg : Config) (s : Vec12) : List Vec24 :=
  let s2 := Machine.Golay.syn2 cfg s
  (if Machine.Gf2.wt s ≤ 3 then [Machine.patternA s] else []) ++
  ((List.finRange 12).filter fun k => decide (Machine.Gf2.wt (s ^^^ Machine.rowB cfg k) ≤ 2)).map
    (Machine.patternB cfg s) ++
  (if Machine.Gf2.wt s2 ≤ 3 then [Machine.patternC1 s2] else []) ++
  ((List.finRange 12).filter fun k => decide (Machine.Gf2.wt (s2 ^^^ Machine.rowB cfg k) ≤ 2)).map
    (Machine.patternC2 cfg s2)

end Sys2Proof.Reference
end

