-- ==== Sys2Proof/Certificates/Slice0/Obligations.lean ====
section
/-! DEFINITION. The statements for the provers. Where a statement is about one matrix B only, it says so: it names
`defaultConfig`, the spec's default from general knowledge (log entry 2). Every other one holds for every B, or for every
B that meets 10_state.md rule R34. -/

open Sys2Proof Sys2Proof.Machine Sys2Proof.Reference

/-! ### Encoding -/

/-- Every instruction, at every value of every field, is what the decoder reads from its word
(30_encoding.md rules R61 to R63). -/
def Obligations.DecodeOfEncodeIsTheInstruction : Prop :=
  ∀ i : Instr, Sys2Proof.decode (Sys2Proof.encode i) = .ok i

/-- No bit of a command word is dropped: a word that decodes is the word of its instruction. -/
def Obligations.EncodeOfDecodeIsTheWord : Prop :=
  ∀ (cmd : Word) (i : Instr), Sys2Proof.decode cmd = .ok i → Sys2Proof.encode i = cmd

/-- The decoder refuses a word exactly when its `op` is `0x00` or `0x04..0xFF`, and names that `op`. -/
def Obligations.DecodeRefusesExactlyTheReservedOps : Prop :=
  ∀ (cmd : Word) (op : BitVec 8), Sys2Proof.decode cmd = .error (.reservedOp op) ↔
    op.toNat = cmd.toNat / 2 ^ 24 ∧ (op.toNat = 0 ∨ 4 ≤ op.toNat)

/-- Rule R62: each operand is a slice of `data`, and the must-be-zero bits are those the table names. -/
def Obligations.OperandsAreSlicesOfData : Prop :=
  ∀ cmd : Word,
    (∀ z m, Sys2Proof.decode cmd = .ok (.enc z m) →
      (∀ i : Fin 12, m.getLsb i = cmd.getLsbD i) ∧
      ((Instr.enc z m).wellFormed = true ↔ ∀ i, 12 ≤ i → i ≤ 23 → cmd.getLsbD i = false)) ∧
    (∀ w, Sys2Proof.decode cmd = .ok (.syn w) →
      (∀ i : Fin 24, w.getLsb i = cmd.getLsbD i) ∧ (Instr.syn w).wellFormed = true) ∧
    (∀ z r, Sys2Proof.decode cmd = .ok (.dec z r) →
      (∀ i : Fin 23, r.getLsb i = cmd.getLsbD i) ∧
      ((Instr.dec z r).wellFormed = true ↔ cmd.getLsbD 23 = false))

/-- The well-formed instructions are those whose words `wellformed_match` and `wellformed_mask` of
spec/opcode_table.json describe. -/
def Obligations.WellFormedIsTheTableMask : Prop :=
  (∀ z m, (Instr.enc z m).wellFormed = true ↔
    Sys2Proof.encode (.enc z m) &&& 0xFFFFF000#32 = 0x01000000#32) ∧
  (∀ w, (Instr.syn w).wellFormed = true ↔ Sys2Proof.encode (.syn w) &&& 0xFF000000#32 = 0x02000000#32) ∧
  (∀ z r, (Instr.dec z r).wellFormed = true ↔
    Sys2Proof.encode (.dec z r) &&& 0xFF800000#32 = 0x03000000#32)

/-- A sanity statement: words written out bit by bit from the `encoding` patterns of the opcode table. -/
def Obligations.WrittenOutWordsDecode : Prop :=
  Sys2Proof.decode 0b00000001000000000000101001011100#32 = .ok (.enc 0#12 0xA5C#12) ∧
  Sys2Proof.decode 0b00000001100000000000000000000001#32 = .ok (.enc 0x800#12 0x001#12) ∧
  Sys2Proof.decode 0b00000010100000010000101001011100#32 = .ok (.syn 0x810A5C#24) ∧
  Sys2Proof.decode 0b00000011000100100011010001010110#32 = .ok (.dec 0#1 0x123456#23) ∧
  Sys2Proof.decode 0b00000011100000000000000000000000#32 = .ok (.dec 1#1 0#23) ∧
  Sys2Proof.decode 0b00000000000000000000000000000000#32 = .error (.reservedOp 0#8)

/-! ### The step -/

/-- A step takes the host's next command and runs the instruction it decodes to, on the state that has it taken. -/
def Obligations.StepRunsTheDecodedInstruction : Prop :=
  ∀ (s : State) (cmd : Word) (rest : List Word) (i : Instr),
    s.pending = cmd :: rest → Sys2Proof.decode cmd = .ok i →
      Machine.step s = exec i { s with pending := rest }

/-- A step answers whenever a command is presented, never refuses, and has no step only where none is presented
(70_reset_and_hazards.md rules R173 and R177). -/
def Obligations.StepStopsOnlyWithoutACommand : Prop :=
  ∀ s : State,
    (s.pending = [] → Machine.step s = .fault .noCommand) ∧
    (s.pending ≠ [] → ∃ t, Machine.step s = .next t)

/-- Rule R72: on every 32-bit word, for every B, the step is the function the rule writes out, here on packed
integers; nothing but the transaction is recorded and the command taken. -/
def Obligations.StepIsThePackedReference : Prop :=
  ∀ (s : State) (cmd : Word) (rest : List Word), s.pending = cmd :: rest →
    Machine.step s = .next { s with
      pending := rest, history := s.history ++ [{ cmd := cmd, rsp := wordStep s.cfg cmd }] }

/-- Rule R64: a reserved `op` ends with `IllegalOp` whatever the data, computes nothing and changes nothing; the
all-zero word is such a command. -/
def Obligations.ReservedOpEndsWithIllegalOp : Prop :=
  (∀ (s : State) (cmd : Word) (rest : List Word), s.pending = cmd :: rest →
    (cmd.toNat / 2 ^ 24 = 0 ∨ 4 ≤ cmd.toNat / 2 ^ 24) →
      Machine.step s = .next { s with
        pending := rest, history := s.history ++ [{ cmd := cmd, rsp := 0x04000000#32 }] }) ∧
  (0#32).toNat / 2 ^ 24 = 0

/-- Rule R65: a non-zero must-be-zero field ends with `InvalidLength` without computing anything, although the word
decodes to its row; `SYN` cannot raise it. -/
def Obligations.MustBeZeroBitsEndWithInvalidLength : Prop :=
  ∀ (s : State) (cmd : Word) (rest : List Word), s.pending = cmd :: rest →
    ((cmd.toNat / 2 ^ 24 = 1 ∧ cmd.toNat % 2 ^ 24 / 2 ^ 12 ≠ 0) ∨
      (cmd.toNat / 2 ^ 24 = 3 ∧ cmd.toNat % 2 ^ 24 / 2 ^ 23 ≠ 0) →
        (∃ i, Sys2Proof.decode cmd = .ok i ∧ i.wellFormed = false) ∧
        Machine.step s = .next { s with
          pending := rest, history := s.history ++ [{ cmd := cmd, rsp := 0x01000000#32 }] }) ∧
    (cmd.toNat / 2 ^ 24 = 2 →
      ∃ t x, Machine.step s = .next t ∧ t.history = s.history ++ [x] ∧ x.cmd = cmd ∧
        x.rsp.toNat / 2 ^ 24 ≠ 1)

/-- Rule R156: the tests are made in the order `op`, must-be-zero bits, operation, and one kind at most is
reported. -/
def Obligations.FailuresAreTestedInOrder : Prop :=
  ∀ (s : State) (cmd : Word) (rest : List Word), s.pending = cmd :: rest →
    ∃ t rsp, Machine.step s = .next t ∧ t.history = s.history ++ [{ cmd := cmd, rsp := rsp }] ∧
      rsp.toNat / 2 ^ 24 =
        (if cmd.toNat / 2 ^ 24 = 0 ∨ 4 ≤ cmd.toNat / 2 ^ 24 then 4
         else if (cmd.toNat / 2 ^ 24 = 1 ∧ cmd.toNat % 2 ^ 24 / 2 ^ 12 ≠ 0) ∨
             (cmd.toNat / 2 ^ 24 = 3 ∧ cmd.toNat % 2 ^ 24 / 2 ^ 23 ≠ 0) then 1
         else if cmd.toNat / 2 ^ 24 = 3 ∧
             Golay.decode s.cfg (BitVec.ofNat 23 (cmd.toNat % 2 ^ 24)) = .fail .decodingFailure then 3
         else 0)

/-- Rule R68: which status code appears on which command; `0x02` and `0x05..0xFF` never do. -/
def Obligations.StatusCodesAreAsTabulated : Prop :=
  ∀ (s : State) (cmd : Word) (rest : List Word), s.pending = cmd :: rest →
    ∃ t rsp, Machine.step s = .next t ∧ t.history = s.history ++ [{ cmd := cmd, rsp := rsp }] ∧
      (rsp.toNat / 2 ^ 24 = 0 → cmd.toNat / 2 ^ 24 = 1 ∨ cmd.toNat / 2 ^ 24 = 2 ∨ cmd.toNat / 2 ^ 24 = 3) ∧
      (rsp.toNat / 2 ^ 24 = 1 → cmd.toNat / 2 ^ 24 = 1 ∨ cmd.toNat / 2 ^ 24 = 3) ∧
      rsp.toNat / 2 ^ 24 ≠ 2 ∧
      (rsp.toNat / 2 ^ 24 = 3 → cmd.toNat / 2 ^ 24 = 3) ∧
      (rsp.toNat / 2 ^ 24 = 4 ↔ cmd.toNat / 2 ^ 24 = 0 ∨ 4 ≤ cmd.toNat / 2 ^ 24) ∧
      rsp.toNat / 2 ^ 24 < 5 ∧
      FailKind.invalidLength.status = 0x01#8 ∧ FailKind.invalidFormat.status = 0x02#8 ∧
      FailKind.decodingFailure.status = 0x03#8 ∧ FailKind.illegalOp.status = 0x04#8

/-- Rules R67 and R69: the `result` of a response is the value zero-extended to 24 bits, bit for bit, and is zero when
the status is not `0x00`. -/
def Obligations.ResultsAreZeroExtended : Prop :=
  ∀ (s : State) (cmd : Word) (rest : List Word), s.pending = cmd :: rest →
    ∃ t rsp, Machine.step s = .next t ∧ t.history = s.history ++ [{ cmd := cmd, rsp := rsp }] ∧
      (rsp.toNat / 2 ^ 24 ≠ 0 → rsp.toNat % 2 ^ 24 = 0) ∧
      (∀ m, Sys2Proof.decode cmd = .ok (.enc 0#12 m) → rsp.toNat / 2 ^ 24 = 0 ∧
        (∀ i : Fin 23, rsp.getLsbD i = (Golay.encode s.cfg m).getLsb i) ∧ rsp.getLsbD 23 = false) ∧
      (∀ w, Sys2Proof.decode cmd = .ok (.syn w) → rsp.toNat / 2 ^ 24 = 0 ∧
        (∀ i : Fin 12, rsp.getLsbD i = (Golay.syndrome s.cfg w).getLsb i) ∧
        ∀ i, 12 ≤ i → i ≤ 23 → rsp.getLsbD i = false) ∧
      (∀ r msg, Sys2Proof.decode cmd = .ok (.dec 0#1 r) → Golay.decode s.cfg r = .ok msg →
        rsp.toNat / 2 ^ 24 = 0 ∧ (∀ i : Fin 12, rsp.getLsbD i = msg.getLsb i) ∧
        ∀ i, 12 ≤ i → i ≤ 23 → rsp.getLsbD i = false)

/-! ### What each instruction completes with, and its frame -/

/-- The frame of every instruction, on every path: the parameter and the host's commands are untouched and the history
grows by the one transaction of this command (10_state.md rules R20 and R31, 60_exceptions.md rule R157). -/
def Obligations.ExecOnlyRecordsItsTransaction : Prop :=
  ∀ (i : Instr) (s t : State), exec i s = .next t →
    t.cfg = s.cfg ∧ t.pending = s.pending ∧
    ∃ rsp, t.history = s.history ++ [{ cmd := Sys2Proof.encode i, rsp := rsp }]

/-- `ENC` completes on every message, in every state, with the packed product `m × G`; nothing else changes
(41_encoder.md rule R100). -/
def Obligations.EncCompletesWithItsCodeword : Prop :=
  ∀ (s : State) (m : Vec12), exec (.enc 0#12 m) s = .next { s with
    history := s.history ++ [{ cmd := BitVec.ofNat 32 (2 ^ 24 + m.toNat),
                               rsp := BitVec.ofNat 32 (packedProduct (packedG s.cfg) 12 m.toNat) }] }

/-- `SYN` completes on every operand, in every state, with the packed product `w × H`; nothing else changes
(42_syndrome.md rule R111). -/
def Obligations.SynCompletesWithItsSyndrome : Prop :=
  ∀ (s : State) (w : Vec24), exec (.syn w) s = .next { s with
    history := s.history ++ [{ cmd := BitVec.ofNat 32 (2 * 2 ^ 24 + w.toNat),
                               rsp := BitVec.ofNat 32 (packedProduct (packedH s.cfg) 24 w.toNat) }] }

/-- `DEC` completes, for any B, on every received vector whose syndrome the locator finds a pattern for, with the first
12 bits of the corrected word; nothing else changes (43_decoder.md rules R120, R128 and R129). -/
def Obligations.DecCompletesWhenAnErrorIsLocated : Prop :=
  ∀ (s : State) (r : Vec23) (l : Located),
    Golay.locate s.cfg (Golay.syndrome s.cfg (Golay.extend r)) = some l →
      exec (.dec 0#1 r) s = .next { s with
        history := s.history ++ [{ cmd := BitVec.ofNat 32 (3 * 2 ^ 24 + r.toNat),
                                   rsp := BitVec.ofNat 32 ((r.toNat ^^^ l.u.toNat) % 2 ^ 12) }] }

/-- Rule R127: when no case matches, `DEC` ends with `DecodingFailure`; no message is produced and nothing is
written. When some case matches, it does not. -/
def Obligations.DecFailsExactlyWhenNoCaseMatches : Prop :=
  ∀ (s : State) (r : Vec23),
    let syn := Golay.syndrome s.cfg (Golay.extend r)
    let syn2 := Golay.syn2 s.cfg syn
    (3 < Gf2.wt syn ∧ (∀ k, 2 < Gf2.wt (syn ^^^ rowB s.cfg k)) ∧
      3 < Gf2.wt syn2 ∧ (∀ k, 2 < Gf2.wt (syn2 ^^^ rowB s.cfg k))) ↔
    exec (.dec 0#1 r) s = .next { s with
      history := s.history ++ [{ cmd := BitVec.ofNat 32 (3 * 2 ^ 24 + r.toNat), rsp := 0x03000000#32 }] }

/-- With the spec's default B, `DEC` completes with status `0x00` on every received vector: the message is that of the
one codeword within distance 3 (43_decoder.md rule R134 (c) and (d)). -/
def Obligations.DecDefaultAlwaysGivesTheNearestCodeword : Prop :=
  ∀ (s : State) (r : Vec23), s.cfg = defaultConfig →
    ∃ m : Vec12,
      exec (.dec 0#1 r) s = .next { s with
        history := s.history ++ [{ cmd := BitVec.ofNat 32 (3 * 2 ^ 24 + r.toNat),
                                   rsp := BitVec.ofNat 32 m.toNat }] } ∧
      Gf2.wt (Golay.encode s.cfg m ^^^ r) ≤ 3 ∧
      ∀ m' : Vec12, Gf2.wt (Golay.encode s.cfg m' ^^^ r) ≤ 3 → m' = m

/-! ### The constant matrices -/

/-- Rules R26, R28 and R29: I, G and H entry by entry, for every B, and their packed rows with the default B. -/
def Obligations.ConstantMatricesAreAsStated : Prop :=
  (∀ j i : Fin 12, identity12 j i = true ↔ j = i) ∧
  (∀ (cfg : Config) (j : Fin 12) (i : Fin 23),
    (∀ h : i.val ≤ 11, matG cfg j i = identity12 j ⟨i.val, by omega⟩) ∧
    (∀ h : 12 ≤ i.val, matG cfg j i = (cfg.bRows.get j).getLsbD (i.val - 12))) ∧
  (∀ (cfg : Config) (j : Fin 24) (i : Fin 12),
    (∀ h : j.val ≤ 11, matH cfg j i = identity12 ⟨j.val, by omega⟩ i) ∧
    (∀ h : 12 ≤ j.val, matH cfg j i = (cfg.bRows.get ⟨j.val - 12, by omega⟩).getLsb i)) ∧
  (List.finRange 12).map (Gf2.row (matG defaultConfig)) =
    [0x23B001#23, 0x51D002#23, 0x68E004#23, 0x347008#23, 0x5A3010#23, 0x6D1020#23,
     0x768040#23, 0x3B4080#23, 0x1DA100#23, 0x0ED200#23, 0x476400#23, 0x7FF800#23] ∧
  (List.finRange 24).map (Gf2.row (matH defaultConfig)) =
    (List.finRange 12).map Gf2.unit ++
    [0xA3B#12, 0xD1D#12, 0xE8E#12, 0xB47#12, 0xDA3#12, 0xED1#12,
     0xF68#12, 0xBB4#12, 0x9DA#12, 0x8ED#12, 0xC76#12, 0x7FF#12]

/-- Rule R27: the default B as its two printed forms, its structure, its symmetry, its row and column weights, and
`B × B = I12`. The value itself is the spec's from general knowledge (log entry 2). -/
def Obligations.DefaultMatrixHasItsStatedStructure : Prop :=
  (List.finRange 12).map (fun k => String.ofList (toBitString (rowB defaultConfig k))) =
    ["110111000101", "101110001011", "011100010111", "111000101101", "110001011011", "100010110111",
     "000101101111", "001011011101", "010110111001", "101101110001", "011011100011", "111111111110"] ∧
  (List.finRange 12).map (rowB defaultConfig) =
    [0xA3B#12, 0xD1D#12, 0xE8E#12, 0xB47#12, 0xDA3#12, 0xED1#12,
     0xF68#12, 0xBB4#12, 0x9DA#12, 0x8ED#12, 0xC76#12, 0x7FF#12] ∧
  (∀ j i : Fin 12, j.val < 11 → i.val < 11 →
    matB defaultConfig j i = matB defaultConfig 0 ⟨(i.val + j.val) % 11, by omega⟩) ∧
  (∀ j : Fin 12, matB defaultConfig j 11 = decide (j.val < 11)) ∧
  (∀ i : Fin 12, matB defaultConfig 11 i = decide (i.val < 11)) ∧
  (∀ j i : Fin 12, matB defaultConfig j i = matB defaultConfig i j) ∧
  (∀ j : Fin 12, Gf2.wt (rowB defaultConfig j) = if j = 11 then 11 else 7) ∧
  (∀ i : Fin 12, Gf2.wt (Gf2.ofBits 12 fun j => matB defaultConfig j i) = if i = 11 then 11 else 7) ∧
  (∀ j i : Fin 12, oddMany (fun k => matB defaultConfig j k && matB defaultConfig k i) = identity12 j i)

/-- Rule R34: the default B meets every requirement, with the weights of its 4096 extended codewords. -/
def Obligations.DefaultMatrixMeetsItsRequirements : Prop :=
  meetsR34 defaultConfig ∧
  (∀ m : Vec12, (Gf2.vecmat m (matB defaultConfig)).getLsbD 11 =
    decide (Gf2.wt (Golay.encode defaultConfig m) % 2 = 1)) ∧
  [0, 8, 12, 16, 24].map (fun n => (List.range 4096).countP fun m =>
      Gf2.wt (extCodeword defaultConfig (BitVec.ofNat 12 m)) == n) = [1, 759, 2576, 759, 1]

/-! ### Primitives -/

/-- Rule R80: arithmetic on bits is over GF(2); a sum is 1 exactly when an odd number of its bits are 1. -/
def Obligations.BitSumIsOddParity : Prop :=
  (∀ (n : Nat) (f : Fin n → Bool), Gf2.xorSum n f = oddMany f) ∧
  (∀ x : Bool, (x ^^ x) = false ∧ (x ^^ false) = x ∧ (x && true) = x ∧ (x && false) = false)

/-- Rule R85: the weight counts the true bits, with its corner cases, its law over XOR and its example. -/
def Obligations.WeightCountsTrueBits : Prop :=
  (∀ (n : Nat) (v : BitVec n),
    Gf2.wt v = (Finset.univ.filter fun i : Fin n => v.getLsb i = true).card ∧
    Gf2.wt v = popCount n v.toNat) ∧
  (∀ n, Gf2.wt (Gf2.zeros n) = 0 ∧ Gf2.wt (BitVec.allOnes n) = n) ∧
  (∀ (n : Nat) (a b : BitVec n),
    Gf2.wt (a ^^^ b) + 2 * Gf2.wt (a &&& b) = Gf2.wt a + Gf2.wt b ∧
    Gf2.wt (a ^^^ b) % 2 = (Gf2.wt a + Gf2.wt b) % 2) ∧
  Gf2.wt (0xA3B#12) = 7

/-- Rules R82, R83, R84 and R86: reading and setting a bit, the fixed length, XOR, and the refusals of the checked
forms. -/
def Obligations.BitOperationsActOnTheirIndex : Prop :=
  (∀ (n : Nat) (v : BitVec n) (i j : Fin n) (b : Bool),
    Gf2.get v i = v.getLsb i ∧ Gf2.get (Gf2.set v i b) j = if j = i then b else Gf2.get v j) ∧
  (∀ (n : Nat) (v : BitVec n) (i : Nat) (b : Bool),
    (Gf2.getChecked v i = none ↔ n ≤ i) ∧ (Gf2.setChecked v i b = none ↔ n ≤ i) ∧
    (∀ h : i < n, Gf2.getChecked v i = some (Gf2.get v ⟨i, h⟩) ∧
      Gf2.setChecked v i b = some (Gf2.set v ⟨i, h⟩ b)) ∧
    Gf2.length v = n) ∧
  (∀ (n : Nat) (a b : BitVec n), (∀ i, Gf2.get (Gf2.xorWith a b) i = (Gf2.get a i ^^ Gf2.get b i)) ∧
    (Gf2.xorWith a b).toNat = a.toNat ^^^ b.toNat ∧ Gf2.xorChecked a b = some (Gf2.xorWith a b)) ∧
  (∀ (n m : Nat) (a : BitVec n) (b : BitVec m), n ≠ m → Gf2.xorChecked a b = none) ∧
  (fromBitString ['1', '0', '1'] = .ok 0b101#3 ∧ Gf2.get 0b101#3 0 = true ∧ Gf2.get 0b101#3 1 = false) ∧
  Gf2.xorWith 0x555#12 0xA5C#12 = 0xF09#12

/-- Rule R88: the product bit by bit, as the XOR of the selected rows, on packed values, on zero, its linearity, and
that the order of accumulation is not observable. -/
def Obligations.ProductIsTheSumOfSelectedRows : Prop :=
  ∀ (r c : Nat) (M : BitMat r c),
    (∀ (v : BitVec r) (i : Fin c), Gf2.get (Gf2.vecmat v M) i = oddMany fun j => v.getLsb j && M j i) ∧
    (∀ (v : BitVec r) (order : List (Fin r)), order.Perm (List.finRange r) →
      Gf2.vecmat v M = order.foldl (fun acc j => if v.getLsb j then acc ^^^ Gf2.row M j else acc) 0#c ∧
      ∀ i : Fin c, Gf2.get (Gf2.vecmat v M) i =
        order.foldl (fun acc j => acc ^^ (v.getLsb j && M j i)) false) ∧
    (∀ v : BitVec r, (Gf2.vecmat v M).toNat =
      packedProduct (fun j => if h : j < r then (Gf2.row M ⟨j, h⟩).toNat else 0) r v.toNat) ∧
    Gf2.vecmat (Gf2.zeros r) M = Gf2.zeros c ∧
    (∀ a b : BitVec r, Gf2.vecmat (a ^^^ b) M = Gf2.vecmat a M ^^^ Gf2.vecmat b M)

/-- Rule R90: concatenation, slices, unit and zero vectors on packed values. -/
def Obligations.SlicesOnPackedValues : Prop :=
  (∀ (n m : Nat) (a : BitVec n) (b : BitVec m), (Gf2.cat a b).toNat = a.toNat + b.toNat * 2 ^ n) ∧
  (∀ x : Vec24, (Gf2.low x).toNat = x.toNat % 2 ^ 12 ∧ (Gf2.high x).toNat = x.toNat / 2 ^ 12) ∧
  (∀ k : Fin 12, (Gf2.unit k).toNat = 2 ^ k.val) ∧
  (∀ n, (Gf2.zeros n).toNat = 0)

/-- Rule R89: the text form maps to and from a vector of the text's length, rejects every other character, and the
block never answers `InvalidFormat`. -/
def Obligations.TextFormRoundTrips : Prop :=
  (∀ (n : Nat) (v : BitVec n), ∃ h : (toBitString v).length = n,
    fromBitString (toBitString v) = .ok (v.cast h.symm)) ∧
  (∀ (t : List Char) (v : BitVec t.length), fromBitString t = .ok v → toBitString v = t) ∧
  (∀ t : List Char, fromBitString t = .fail .invalidFormat ↔ ∃ c ∈ t, c ≠ '0' ∧ c ≠ '1') ∧
  (fromBitString ['1', '0', '1'] = .ok 0b101#3 ∧ toBitString 0b101#3 = ['1', '0', '1']) ∧
  (∀ (cfg : Config) (i : Instr), outcomeOf cfg i ≠ .fail .invalidFormat)

/-- The assembler reads every instruction's text back to its word; an ill-formed instruction is written with `.word`
(30_encoding.md rule R70). -/
def Obligations.AssemblerReadsWhatItWrites : Prop :=
  ∀ i : Instr, assemble (asmText i) = .ok (Sys2Proof.encode i)

/-! ### The encoder unit -/

/-- Rule R101: `encode` is the product with G, bit by bit and on packed values. -/
def Obligations.EncodeIsTheProductWithG : Prop :=
  ∀ (cfg : Config) (m : Vec12),
    (∀ i : Fin 23, (Golay.encode cfg m).getLsb i = oddMany fun j => m.getLsb j && matG cfg j i) ∧
    (Golay.encode cfg m).toNat = packedProduct (packedG cfg) 12 m.toNat

/-- For every B: `encode` is systematic, hence injective, and its parity part is columns 0..10 of `m × B`; it maps zero
to zero, a unit message to its row of G, and a sum to the sum (41_encoder.md rule R102 (a) to (d)). -/
def Obligations.EncodeIsSystematicAndLinear : Prop :=
  ∀ cfg : Config,
    (∀ m : Vec12, (∀ i : Fin 12, (Golay.encode cfg m).getLsbD i = m.getLsb i) ∧
      ∀ i, i ≤ 10 → (Golay.encode cfg m).getLsbD (12 + i) = (Gf2.vecmat m (matB cfg)).getLsbD i) ∧
    Function.Injective (Golay.encode cfg) ∧
    Golay.encode cfg 0#12 = 0#23 ∧
    (∀ j : Fin 12, Golay.encode cfg (Gf2.unit j) = Gf2.row (matG cfg) j) ∧
    (∀ a b : Vec12, Golay.encode cfg (a ^^^ b) = Golay.encode cfg a ^^^ Golay.encode cfg b)

/-- For every B that meets R34, a codeword with its even-parity bit is `[m | m × B]` and has syndrome zero
(41_encoder.md rule R102 (e)). -/
def Obligations.ExtendedCodewordHasZeroSyndrome : Prop :=
  ∀ (cfg : Config) (m : Vec12), meetsR34 cfg →
    evenExtend (Golay.encode cfg m) = extCodeword cfg m ∧
    Golay.syndrome cfg (evenExtend (Golay.encode cfg m)) = 0#12

/-- With the default B, the weights of the 4096 codewords, and minimum distance 7 (41_encoder.md rule R102 (f)). -/
def Obligations.CodewordWeightsAndDistance : Prop :=
  [0, 7, 8, 11, 12, 15, 16, 23].map (fun n => (List.range 4096).countP fun m =>
      Gf2.wt (Golay.encode defaultConfig (BitVec.ofNat 12 m)) == n) =
    [1, 253, 506, 1288, 1288, 506, 253, 1] ∧
  (∀ m m' : Vec12, m ≠ m' → 7 ≤ Gf2.wt (Golay.encode defaultConfig m ^^^ Golay.encode defaultConfig m')) ∧
  (∃ m m' : Vec12, m ≠ m' ∧ Gf2.wt (Golay.encode defaultConfig m ^^^ Golay.encode defaultConfig m') = 7)

/-! ### The syndrome calculator unit -/

/-- Rule R110: `syndrome` is the product with H, bit by bit, by halves, and on packed values. -/
def Obligations.SyndromeIsTheProductWithH : Prop :=
  ∀ (cfg : Config) (w : Vec24),
    (∀ i : Fin 12, (Golay.syndrome cfg w).getLsb i = oddMany fun j => w.getLsb j && matH cfg j i) ∧
    Golay.syndrome cfg w = Gf2.low w ^^^ Gf2.vecmat (Gf2.high w) (matB cfg) ∧
    (Golay.syndrome cfg w).toNat = packedProduct (packedH cfg) 24 w.toNat

/-- Rule R112: the second syndrome is the product with B; with `B × B = I12` it undoes itself and exchanges rows of B
and unit vectors; its examples with the default B. -/
def Obligations.SecondSyndromeIsTheProductWithB : Prop :=
  (∀ (cfg : Config) (s : Vec12) (i : Fin 12),
    (Golay.syn2 cfg s).getLsb i = oddMany fun j => s.getLsb j && matB cfg j i) ∧
  (∀ cfg : Config, (∀ j i, oddMany (fun k => matB cfg j k && matB cfg k i) = identity12 j i) →
    (∀ s, Golay.syn2 cfg (Golay.syn2 cfg s) = s) ∧
    ∀ k, Golay.syn2 cfg (rowB cfg k) = Gf2.unit k ∧ Golay.syn2 cfg (Gf2.unit k) = rowB cfg k) ∧
  [0x001#12, 0x800#12, 0x7FF#12, 0xFFF#12, 0x1B2#12].map (Golay.syn2 defaultConfig) =
    [0xA3B#12, 0x7FF#12, 0x800#12, 0xFFF#12, 0xC01#12]

/-- The syndrome is linear, and with `B × B = I12` it is zero exactly on `[m | m × B]`, and a corrupted codeword has the
syndrome of its error (42_syndrome.md rule R113 (a) to (c)). -/
def Obligations.SyndromeIsThatOfTheErrorAlone : Prop :=
  ∀ cfg : Config,
    (∀ a b : Vec24, Golay.syndrome cfg (a ^^^ b) = Golay.syndrome cfg a ^^^ Golay.syndrome cfg b) ∧
    ((∀ j i, oddMany (fun k => matB cfg j k && matB cfg k i) = identity12 j i) →
      (∀ w : Vec24, Golay.syndrome cfg w = 0#12 ↔ w = extCodeword cfg (Gf2.low w)) ∧
      (∀ (m : Vec12) (e : Vec24), Golay.syndrome cfg (extCodeword cfg m ^^^ e) = Golay.syndrome cfg e) ∧
      ∀ lo hi : Vec12,
        Golay.syndrome cfg (Gf2.cat lo hi) = lo ^^^ Gf2.vecmat hi (matB cfg) ∧
        Golay.syn2 cfg (Golay.syndrome cfg (Gf2.cat lo hi)) = Gf2.vecmat lo (matB cfg) ^^^ hi)

/-- A host checks a 23-bit vector with `SYN`: for every B that meets R34, the even-parity extension has syndrome zero
exactly when the vector is a codeword (42_syndrome.md rule R111). -/
def Obligations.SynOfEvenExtensionChecksACodeword : Prop :=
  ∀ (cfg : Config) (x : Vec23), meetsR34 cfg →
    (Golay.syndrome cfg (evenExtend x) = 0#12 ↔ ∃ m, Golay.encode cfg m = x)

/-! ### The decoder unit -/

/-- Rule R121: the appended bit is 1 exactly when the received weight is even, so the extended vector has odd weight;
for B that meets R34, `t` errors of the codeword become `t` or `t + 1` errors of the extended one; the examples. -/
def Obligations.ExtensionHasOddWeight : Prop :=
  (∀ r : Vec23, (∀ i : Fin 23, (Golay.extend r).getLsbD i = r.getLsb i) ∧
    ((Golay.extend r).getLsbD 23 = true ↔ Gf2.wt r % 2 = 0) ∧
    Gf2.wt (Golay.extend r) % 2 = 1) ∧
  (∀ (cfg : Config) (m : Vec12) (e : Vec23), meetsR34 cfg →
    Gf2.wt (Golay.extend (Golay.encode cfg m ^^^ e) ^^^ extCodeword cfg m) =
      if Gf2.wt e % 2 = 1 then Gf2.wt e else Gf2.wt e + 1) ∧
  Golay.extend 0#23 = 0x800000#24 ∧ Golay.extend 0x23B001#23 = 0x23B001#24

/-- Rule R122: the first syndrome is that of the extended vector; with the default B its weight is odd in every `DEC`,
so it is never zero. -/
def Obligations.DecoderSyndromeHasOddWeight : Prop :=
  ∀ r : Vec23,
    (∀ i : Fin 12, (Golay.syndrome defaultConfig (Golay.extend r)).getLsb i =
      oddMany fun j => (Golay.extend r).getLsb j && matH defaultConfig j i) ∧
    Gf2.wt (Golay.syndrome defaultConfig (Golay.extend r)) % 2 = 1 ∧
    Golay.syndrome defaultConfig (Golay.extend r) ≠ 0#12

/-- Rule R131: the cases are tried in the order A, B, C1, C2, each reached only when every earlier one did not apply,
and each scan takes the lowest row that passes. -/
def Obligations.LocatorPicksTheEarliestCase : Prop :=
  ∀ (cfg : Config) (s : Vec12) (st : Stage),
    let s2 := Golay.syn2 cfg s
    let notA := 3 < Gf2.wt s
    let notB := ∀ k, 2 < Gf2.wt (s ^^^ rowB cfg k)
    let notC1 := 3 < Gf2.wt s2
    ((Golay.locate cfg s).map Located.stage = some st ↔
      match st with
      | .a => Gf2.wt s ≤ 3
      | .b k => notA ∧ Gf2.wt (s ^^^ rowB cfg k) ≤ 2 ∧ ∀ j, j < k → 2 < Gf2.wt (s ^^^ rowB cfg j)
      | .c1 => notA ∧ notB ∧ Gf2.wt s2 ≤ 3
      | .c2 k => notA ∧ notB ∧ notC1 ∧
          Gf2.wt (s2 ^^^ rowB cfg k) ≤ 2 ∧ ∀ j, j < k → 2 < Gf2.wt (s2 ^^^ rowB cfg j))

/-- Rules R123 to R126: the pattern of each case bit by bit; and, for B that meets R34, the case is decided by where the
errors of the 24-bit vector lie, and the pattern is the error itself, for every error of weight at most 3. -/
def Obligations.LocatorFindsTheErrorByWhereItLies : Prop :=
  (∀ (cfg : Config) (s : Vec12) (l : Located), Golay.locate cfg s = some l →
    match l.stage with
    | .a => Gf2.wt s ≤ 3 ∧ Gf2.low l.u = s ∧ Gf2.high l.u = 0#12
    | .b k => 3 < Gf2.wt s ∧ Gf2.wt (s ^^^ rowB cfg k) ≤ 2 ∧
        Gf2.low l.u = s ^^^ rowB cfg k ∧ (∀ i : Fin 12, (Gf2.high l.u).getLsb i = decide (i = k))
    | .c1 => Gf2.wt (Golay.syn2 cfg s) ≤ 3 ∧ Gf2.low l.u = 0#12 ∧ Gf2.high l.u = Golay.syn2 cfg s
    | .c2 k => 3 < Gf2.wt (Golay.syn2 cfg s) ∧ Gf2.wt (Golay.syn2 cfg s ^^^ rowB cfg k) ≤ 2 ∧
        (∀ i : Fin 12, (Gf2.low l.u).getLsb i = decide (i = k)) ∧
        Gf2.high l.u = Golay.syn2 cfg s ^^^ rowB cfg k) ∧
  (∀ (cfg : Config) (lo hi : Vec12), meetsR34 cfg → Gf2.wt lo + Gf2.wt hi ≤ 3 →
    (hi = 0#12 →
      Golay.locate cfg (Golay.syndrome cfg (Gf2.cat lo hi)) = some { stage := .a, u := Gf2.cat lo hi }) ∧
    (∀ k, hi = Gf2.unit k →
      Golay.locate cfg (Golay.syndrome cfg (Gf2.cat lo hi)) = some { stage := .b k, u := Gf2.cat lo hi }) ∧
    (2 ≤ Gf2.wt hi → lo = 0#12 →
      Golay.locate cfg (Golay.syndrome cfg (Gf2.cat lo hi)) = some { stage := .c1, u := Gf2.cat lo hi }) ∧
    (∀ k, 2 ≤ Gf2.wt hi → lo = Gf2.unit k →
      Golay.locate cfg (Golay.syndrome cfg (Gf2.cat lo hi)) = some { stage := .c2 k, u := Gf2.cat lo hi }))

/-- Rules R128, R129 and R130: `decode` and `locate` are the rule's one piece of pseudocode, here on packed values, and
the message is the first 12 bits of `v = w XOR u`. -/
def Obligations.DecodeIsThePackedProcedure : Prop :=
  (∀ (cfg : Config) (s : Vec12),
    (Golay.locate cfg s).map (fun l => l.u.toNat) = packedLocate cfg s.toNat) ∧
  (∀ (cfg : Config) (r : Vec23),
    (Golay.decode cfg r = .fail .decodingFailure ↔ packedDecode cfg r.toNat = none) ∧
    (∀ msg : Vec12, Golay.decode cfg r = .ok msg ↔ packedDecode cfg r.toNat = some msg.toNat)) ∧
  (∀ (cfg : Config) (r : Vec23) (l : Located),
    Golay.locate cfg (Golay.syndrome cfg (Golay.extend r)) = some l →
      ∃ msg, Golay.decode cfg r = .ok msg ∧
        ∀ i : Fin 12, msg.getLsb i = (Golay.extend r ^^^ l.u).getLsbD i)

/-- Rule R133: only the low half of the pattern reaches the message, case by case. -/
def Obligations.MessageByCase : Prop :=
  ∀ (cfg : Config) (r : Vec23) (l : Located),
    let s := Golay.syndrome cfg (Golay.extend r)
    Golay.locate cfg s = some l →
      Golay.decode cfg r = .ok (r.extractLsb' 0 12 ^^^ Gf2.low l.u) ∧
      match l.stage with
      | .a => Golay.decode cfg r = .ok (r.extractLsb' 0 12 ^^^ s)
      | .b k => Golay.decode cfg r = .ok (r.extractLsb' 0 12 ^^^ s ^^^ rowB cfg k)
      | .c1 => Golay.decode cfg r = .ok (r.extractLsb' 0 12)
      | .c2 k => ∃ msg, Golay.decode cfg r = .ok msg ∧
          ∀ i : Fin 12, msg.getLsb i = (r.getLsbD i ^^ decide (i = k))

/-- The round trip, for every B that meets R34: an unharmed codeword decodes to its message, by case B at row 11, with
the pattern that inverts the appended bit alone (43_decoder.md rule R134 (a)). -/
def Obligations.RoundTripTakesCaseBRowEleven : Prop :=
  ∀ (cfg : Config) (m : Vec12), meetsR34 cfg →
    Golay.decode cfg (Golay.encode cfg m) = .ok m ∧
    Golay.locate cfg (Golay.syndrome cfg (Golay.extend (Golay.encode cfg m))) =
      some { stage := .b 11, u := 0x800000#24 }

/-- The error correction guarantee, for every B that meets R34: every error of weight at most 3 that the channel adds to
a codeword is corrected (43_decoder.md rule R134 (b)). -/
def Obligations.UpToThreeErrorsAreCorrected : Prop :=
  ∀ (cfg : Config) (m : Vec12) (e : Vec23), meetsR34 cfg → Gf2.wt e ≤ 3 →
    Golay.decode cfg (channel (Golay.encode cfg m) e) = .ok m

/-- For every B that meets R34, not only the default, `decode` fails on no received vector and gives the message of a
codeword within distance 3: the 23-bit code is perfect (93_implementation_defined.md U13; 43_decoder.md
rule R134 (c) and (d) say it of the default). -/
def Obligations.PerfectCodeNeverFailsToDecode : Prop :=
  ∀ (cfg : Config) (r : Vec23), meetsR34 cfg →
    ∃ m, Golay.decode cfg r = .ok m ∧ Gf2.wt (Golay.encode cfg m ^^^ r) ≤ 3

/-- With the default B, an error of weight 4 or more is never reported: the result is `Ok` with a wrong message
(43_decoder.md rule R134 (c), 90_conflicts.md C2). -/
def Obligations.FourOrMoreErrorsGiveAWrongMessage : Prop :=
  ∀ (m : Vec12) (e : Vec23), 4 ≤ Gf2.wt e →
    ∃ m', Golay.decode defaultConfig (channel (Golay.encode defaultConfig m) e) = .ok m' ∧ m' ≠ m

/-- With the default B, how many of the 4096 syndromes each case takes; every syndrome of odd weight is located, and the
failing ones all have even weight (43_decoder.md rule R134 (e)). -/
def Obligations.LocatorCountsOverAllSyndromes : Prop :=
  countLocated defaultConfig (fun l => match l with | some ⟨.a, _⟩ => true | _ => false) = 299 ∧
  countLocated defaultConfig (fun l => match l with | some ⟨.b _, _⟩ => true | _ => false) = 948 ∧
  countLocated defaultConfig (fun l => match l with | some ⟨.c1, _⟩ => true | _ => false) = 286 ∧
  countLocated defaultConfig (fun l => match l with | some ⟨.c2 _, _⟩ => true | _ => false) = 792 ∧
  countLocated defaultConfig (fun l => l.isNone) = 1771 ∧
  (∀ s : Vec12, Gf2.wt s % 2 = 1 → (Golay.locate defaultConfig s).isSome = true) ∧
  Golay.locate defaultConfig 0x00F#12 = none ∧ Golay.locate defaultConfig 0x033#12 = none

/-- For every B that meets R34, no two rows pass in one scan, and wherever several cases' conditions hold for one
syndrome they give the same pattern; with the default B that happens for 169 syndromes (43_decoder.md rule R134 (f),
90_conflicts.md C9). -/
def Obligations.OverlappingCasesAgree : Prop :=
  (∀ (cfg : Config) (x : Vec12) (j k : Fin 12), meetsR34 cfg →
    Gf2.wt (x ^^^ rowB cfg j) ≤ 2 → Gf2.wt (x ^^^ rowB cfg k) ≤ 2 → j = k) ∧
  (∀ (cfg : Config) (s : Vec12) (u u' : Vec24), meetsR34 cfg →
    u ∈ candidates cfg s → u' ∈ candidates cfg s → u = u') ∧
  ((List.range 4096).countP fun s => decide (2 ≤ (candidates defaultConfig (BitVec.ofNat 12 s)).length)) = 169

/-! ### The whole machine -/

/-- An invariant every step keeps, from every state that has it: each recorded response is the function of rule R72
applied to the command of its own transaction and to nothing else (20_memory.md rule R46). -/
def Obligations.StepKeepsResponsesFunctional : Prop :=
  ∀ s t : State, (∀ x ∈ s.history, x.rsp = wordStep s.cfg x.cmd) → Machine.step s = .next t →
    ∀ x ∈ t.history, x.rsp = wordStep t.cfg x.cmd

/-- The invariant of `StepKeepsResponsesFunctional` holds at reset. -/
def Obligations.ResetResponsesAreFunctional : Prop :=
  ∀ x ∈ State.reset.history, x.rsp = wordStep State.reset.cfg x.cmd

/-- An invariant every step keeps on a part with the default B: no response has status `0x02`, `0x03` or above `0x04`,
and a response with a non-zero status has a zero result (95_test_vectors.md section 7). -/
def Obligations.StepKeepsDefaultStatuses : Prop :=
  ∀ s t : State,
    (s.cfg = defaultConfig ∧ ∀ x ∈ s.history,
      (x.rsp.toNat / 2 ^ 24 = 0 ∨ x.rsp = 0x01000000#32 ∨ x.rsp = 0x04000000#32)) →
    Machine.step s = .next t →
      t.cfg = defaultConfig ∧ ∀ x ∈ t.history,
        (x.rsp.toNat / 2 ^ 24 = 0 ∨ x.rsp = 0x01000000#32 ∨ x.rsp = 0x04000000#32)

/-- What reset leaves: the constants at the spec's default B, no transaction, nothing pending; and a reset input changes
no state (70_reset_and_hazards.md rules R170, R171 and R173; the default B is log entry 2, the two lists are the
model's, log entry 3). -/
def Obligations.ResetLeavesNothingButTheConstants : Prop :=
  State.reset.cfg = defaultConfig ∧ State.reset.pending = [] ∧ State.reset.history = [] ∧
  (∀ s : State, s.assertReset = s) ∧
  ∀ cmd : Word, Machine.step (State.reset.present cmd) =
    .next { State.reset with history := [{ cmd := cmd, rsp := wordStep defaultConfig cmd }] }

/-- Rule R18: a run of `n` commands has exactly `n` steps and cannot hang; it leaves the list of its transactions, in
order, each response the step function of its command, and the block as it was; then no further step exists. -/
def Obligations.RunAnswersEachCommandInOrder : Prop :=
  ∀ s : State,
    Safe s ∧
    Sys2Proof.core.run s.pending.length s = .next { s with
      pending := [],
      history := s.history ++ s.pending.map fun cmd => { cmd := cmd, rsp := wordStep s.cfg cmd } } ∧
    Sys2Proof.core.run (s.pending.length + 1) s = .fault .noCommand

/-- Rule R158: after a failing command the next one is executed exactly as if the failing one had never been issued:
only the record of the failure itself differs. -/
def Obligations.FailureLeavesNothingBehind : Prop :=
  ∀ (s t : State) (bad : Word) (rest : List Word),
    s.pending = bad :: rest → wordStep s.cfg bad ≥ 0x01000000#32 → Machine.step s = .next t →
      t = { s with pending := rest, history := s.history ++ [{ cmd := bad, rsp := wordStep s.cfg bad }] } ∧
      ∀ cmd more, rest = cmd :: more →
        ∃ u v x, Machine.step t = .next u ∧ Machine.step { s with pending := rest } = .next v ∧
          u.history = t.history ++ [x] ∧ v.history = s.history ++ [x]

/-- From 20_memory.md section 2 (rule R46): for every interleaving of the steps of any number of instances, each instance
answers its own commands in order, each response the step function of that command. Reading the rule's parallel issue as
its interleavings is the model's (log entry 10, DEDUCED). -/
def Obligations.InterleavedInstancesDoNotInterfere : Prop :=
  ∀ (instances : List State) (schedule : List Nat) (k : Nat) (s : State), instances[k]? = some s →
    (systemRun instances schedule).length = instances.length ∧
    (systemRun instances schedule)[k]? = some { s with
      pending := s.pending.drop (schedule.count k),
      history := s.history ++ (s.pending.take (schedule.count k)).map fun cmd =>
        { cmd := cmd, rsp := wordStep s.cfg cmd } }

/-- A host that chooses each command from the responses so far gets, for every command, the step function of that
command, always (00_scope.md rules R16 and R19). -/
def Obligations.AdaptiveHostAlwaysGetsTheStepFunction : Prop :=
  ∀ (host : List Transaction → Option Word) (n : Nat) (s : State), s.pending = [] →
    ∃ cmds : List Word, cmds.length ≤ n ∧
      interact host n s = .next { s with
        history := s.history ++ cmds.map fun cmd => { cmd := cmd, rsp := wordStep s.cfg cmd } } ∧
      (∀ k, (h : k < cmds.length) → host (s.history ++ (cmds.take k).map fun cmd =>
        { cmd := cmd, rsp := wordStep s.cfg cmd }) = some cmds[k]) ∧
      (cmds.length < n → host (s.history ++ cmds.map fun cmd =>
        { cmd := cmd, rsp := wordStep s.cfg cmd }) = none)
end

