-- ==== Sys2Proof/Laws/Bits.lean ====
section
/-! SUPPORT. What each primitive of Machine/Bits.lean answers, bit by bit. Later proofs cite these and do not unfold the
primitives. -/

namespace Sys2Proof.Machine

theorem Gf2.getLsbD_ofBits {n : Nat} (f : Fin n → Bool) (i : Nat) :
    (Gf2.ofBits n f).getLsbD i = if h : i < n then f ⟨i, h⟩ else false := by
  induction n with
  | zero => simp [Gf2.ofBits]
  | succ n ih =>
    rw [Gf2.ofBits, BitVec.getLsbD_cons, ih]
    by_cases h : i = n
    · subst h; simp [Fin.last]
    · by_cases h' : i < n
      · simp [h, h', Nat.lt_succ_of_lt h']
      · have : ¬ i < n + 1 := by omega
        simp [h, h', this]

@[simp] theorem Gf2.get_ofBits {n : Nat} (f : Fin n → Bool) (i : Fin n) : Gf2.get (Gf2.ofBits n f) i = f i := by
  show (Gf2.ofBits n f).getLsbD i.val = f i
  rw [Gf2.getLsbD_ofBits, dif_pos i.isLt]

theorem Gf2.get_eq_getLsbD {n : Nat} (v : BitVec n) (i : Fin n) : Gf2.get v i = v.getLsbD i.val := rfl

/-- Two vectors of one length are equal when every bit is (rule R87). -/
theorem Gf2.ext {n : Nat} {a b : BitVec n} (h : ∀ i, Gf2.get a i = Gf2.get b i) : a = b :=
  BitVec.eq_of_getLsbD_eq fun i hi => h ⟨i, hi⟩

theorem Gf2.xorSum_congr {n : Nat} {f g : Fin n → Bool} (h : ∀ j, f j = g j) : Gf2.xorSum n f = Gf2.xorSum n g := by
  rw [funext h]

@[simp] theorem Gf2.xorSum_false (n : Nat) : Gf2.xorSum n (fun _ => false) = false := by
  induction n with
  | zero => rfl
  | succ n ih => simp [Gf2.xorSum, ih]

/-- A GF(2) sum of sums is the sum of the two GF(2) sums. -/
theorem Gf2.xorSum_xor {n : Nat} (f g : Fin n → Bool) :
    Gf2.xorSum n (fun j => f j ^^ g j) = (Gf2.xorSum n f ^^ Gf2.xorSum n g) := by
  induction n with
  | zero => rfl
  | succ n ih =>
    simp only [Gf2.xorSum, ih]
    cases Gf2.xorSum n (fun i => f i.castSucc) <;> cases Gf2.xorSum n (fun i => g i.castSucc) <;>
      cases f (Fin.last n) <;> cases g (Fin.last n) <;> rfl

/-- A factor common to every summand comes out of a GF(2) sum. -/
theorem Gf2.xorSum_and {n : Nat} (b : Bool) (f : Fin n → Bool) :
    Gf2.xorSum n (fun j => b && f j) = (b && Gf2.xorSum n f) := by
  cases b <;> simp

/-- The order of two nested GF(2) sums does not matter. -/
theorem Gf2.xorSum_comm {n m : Nat} (f : Fin n → Fin m → Bool) :
    Gf2.xorSum n (fun j => Gf2.xorSum m (f j)) = Gf2.xorSum m fun i => Gf2.xorSum n fun j => f j i := by
  induction n with
  | zero => simp [Gf2.xorSum]
  | succ n ih => rw [Gf2.xorSum, ih (fun j => f j.castSucc), ← Gf2.xorSum_xor]; rfl

/-- A sum with at most one summand that is not zero is that summand. -/
theorem Gf2.xorSum_single {n : Nat} (k : Fin n) (f : Fin n → Bool) (h : ∀ j, j ≠ k → f j = false) :
    Gf2.xorSum n f = f k := by
  induction n with
  | zero => exact k.elim0
  | succ n ih =>
    rw [Gf2.xorSum]
    cases k using Fin.lastCases with
    | last =>
      rw [Gf2.xorSum_congr fun j => h j.castSucc (Fin.castSucc_lt_last j).ne, Gf2.xorSum_false, Bool.false_xor]
    | cast k =>
      rw [ih k _ fun j hj => h j.castSucc fun e => hj (Fin.castSucc_injective n e),
        h _ (Fin.castSucc_lt_last k).ne', Bool.xor_false]

theorem Gf2.countTrue_le (n : Nat) (f : Fin n → Bool) : Gf2.countTrue n f ≤ n := by
  induction n with
  | zero => exact Nat.le_refl 0
  | succ n ih =>
    have h := ih fun i => f i.castSucc
    have h' := Bool.toNat_le (f (Fin.last n))
    simp only [Gf2.countTrue]
    omega

/-- A weight is at most the length, so it cannot wrap (rule R81). -/
theorem Gf2.wt_le {n : Nat} (v : BitVec n) : Gf2.wt v ≤ n := Gf2.countTrue_le n _

@[simp] theorem Gf2.get_xorWith {n : Nat} (a b : BitVec n) (i : Fin n) :
    Gf2.get (Gf2.xorWith a b) i = (Gf2.get a i ^^ Gf2.get b i) := by
  simp [Gf2.get_eq_getLsbD, Gf2.xorWith]

@[simp] theorem Gf2.get_zeros {n : Nat} (i : Fin n) : Gf2.get (Gf2.zeros n) i = false := by
  simp [Gf2.get_eq_getLsbD, Gf2.zeros]

@[simp] theorem Gf2.get_unit (k i : Fin 12) : Gf2.get (Gf2.unit k) i = decide (i = k) := Gf2.get_ofBits _ _

@[simp] theorem Gf2.get_vecmat {r c : Nat} (v : BitVec r) (M : BitMat r c) (i : Fin c) :
    Gf2.get (Gf2.vecmat v M) i = Gf2.xorSum r fun j => Gf2.get v j && M j i := Gf2.get_ofBits _ _

@[simp] theorem Gf2.get_row {r c : Nat} (M : BitMat r c) (j : Fin r) (i : Fin c) : Gf2.get (Gf2.row M j) i = M j i :=
  Gf2.get_ofBits _ _

theorem Gf2.getLsbD_cat {n m : Nat} (a : BitVec n) (b : BitVec m) (i : Nat) :
    (Gf2.cat a b).getLsbD i = if i < n then a.getLsbD i else b.getLsbD (i - n) := by
  simp [Gf2.cat, BitVec.getLsbD_append]

theorem Gf2.getLsbD_low (x : Vec24) (i : Nat) : (Gf2.low x).getLsbD i = (decide (i < 12) && x.getLsbD i) := by
  simp [Gf2.low, BitVec.getLsbD_extractLsb']

theorem Gf2.getLsbD_high (x : Vec24) (i : Nat) : (Gf2.high x).getLsbD i = (decide (i < 12) && x.getLsbD (12 + i)) := by
  simp [Gf2.high, BitVec.getLsbD_extractLsb']

@[simp] theorem Gf2.low_cat (a b : Vec12) : Gf2.low (Gf2.cat a b) = a := by
  refine Gf2.ext fun i => ?_
  simp only [Gf2.get_eq_getLsbD, Gf2.getLsbD_low, Gf2.getLsbD_cat]
  simp [i.isLt]

@[simp] theorem Gf2.high_cat (a b : Vec12) : Gf2.high (Gf2.cat a b) = b := by
  refine Gf2.ext fun i => ?_
  simp only [Gf2.get_eq_getLsbD, Gf2.getLsbD_high, Gf2.getLsbD_cat]
  simp [i.isLt]

@[simp] theorem Gf2.low_xorWith (a b : Vec24) :
    Gf2.low (Gf2.xorWith a b) = Gf2.xorWith (Gf2.low a) (Gf2.low b) :=
  BitVec.eq_of_getLsbD_eq fun i _ => by
    simp only [Gf2.xorWith, Gf2.getLsbD_low, BitVec.getLsbD_xor]
    cases decide (i < 12) <;> simp

@[simp] theorem Gf2.high_xorWith (a b : Vec24) :
    Gf2.high (Gf2.xorWith a b) = Gf2.xorWith (Gf2.high a) (Gf2.high b) :=
  BitVec.eq_of_getLsbD_eq fun i _ => by
    simp only [Gf2.xorWith, Gf2.getLsbD_high, BitVec.getLsbD_xor]
    cases decide (i < 12) <;> simp

/-- A 24-bit vector is its two halves. -/
theorem Gf2.cat_low_high (x : Vec24) : Gf2.cat (Gf2.low x) (Gf2.high x) = x := by
  refine BitVec.eq_of_getLsbD_eq fun i hi => ?_
  rw [Gf2.getLsbD_cat, Gf2.getLsbD_low, Gf2.getLsbD_high]
  by_cases h : i < 12
  · simp [h]
  · have h1 : i - 12 < 12 := by omega
    have h2 : 12 + (i - 12) = i := by omega
    simp [h, h1, h2]

end Sys2Proof.Machine
end

