-- ==== Sys2Proof/Laws/Matrices.lean ====
section
/-! SUPPORT. The entries of the constant matrices, and the clauses of `meetsR34` by name. -/

namespace Sys2Proof.Machine

theorem matG_low (cfg : Config) (j : Fin 12) (i : Fin 23) (h : i.val < 12) :
    matG cfg j i = identity12 j ⟨i.val, h⟩ := by simp [matG, h]

theorem matG_high (cfg : Config) (j : Fin 12) (i : Fin 23) (h : ¬ i.val < 12) :
    matG cfg j i = matB cfg j ⟨i.val - 12, by omega⟩ := by simp [matG, h]

theorem matH_low (cfg : Config) (j : Fin 24) (i : Fin 12) (h : j.val < 12) :
    matH cfg j i = identity12 ⟨j.val, h⟩ i := by simp [matH, h]

theorem matH_high (cfg : Config) (j : Fin 24) (i : Fin 12) (h : ¬ j.val < 12) :
    matH cfg j i = matB cfg ⟨j.val - 12, by omega⟩ i := by simp [matH, h]

@[simp] theorem get_rowB (cfg : Config) (k i : Fin 12) : Gf2.get (rowB cfg k) i = matB cfg k i := Gf2.get_row _ _ _

@[simp] theorem low_extCodeword (cfg : Config) (m : Vec12) : Gf2.low (extCodeword cfg m) = m := Gf2.low_cat _ _

@[simp] theorem high_extCodeword (cfg : Config) (m : Vec12) :
    Gf2.high (extCodeword cfg m) = Gf2.vecmat m (matB cfg) := Gf2.high_cat _ _

theorem meetsR34_involution {cfg : Config} (h : meetsR34 cfg) (j i : Fin 12) :
    Gf2.xorSum 12 (fun k => matB cfg j k && matB cfg k i) = identity12 j i := h.1 j i

theorem meetsR34_even {cfg : Config} (h : meetsR34 cfg) (m : Vec12) : Gf2.wt (extCodeword cfg m) % 2 = 0 := h.2.1 m

theorem meetsR34_distance {cfg : Config} (h : meetsR34 cfg) {m m' : Vec12} (hm : m ≠ m') :
    8 ≤ Gf2.wt (Gf2.xorWith (extCodeword cfg m) (extCodeword cfg m')) := h.2.2.1 m m' hm

end Sys2Proof.Machine
end

