-- ==== Sys2Proof/Laws/Default.lean ====
section
/-! SUPPORT. The default B meets 10_state.md rule R34, so that the statements about every such B are about something.
The 4096 codewords are walked on packed values, one row of `[I | B]` at a time. -/

namespace Sys2Proof.Machine

/-- The weight of the low `n` bits of a packed value, taken off at the bottom one by one. -/
def packedWeight : Nat → Nat → Nat
  | 0, _ => 0
  | n + 1, x => Nat.add (Nat.mod x 2) (packedWeight n (Nat.div x 2))

/-- Counting from the first index up is counting it and then the rest. -/
theorem Gf2.countTrue_succ (n : Nat) (f : Fin (n + 1) → Bool) :
    Gf2.countTrue (n + 1) f = (f 0).toNat + Gf2.countTrue n fun i => f i.succ := by
  induction n with
  | zero => simp [Gf2.countTrue]
  | succ n ih =>
    rw [Gf2.countTrue, ih, Gf2.countTrue]
    simp only [Fin.castSucc_zero, Fin.succ_last, Fin.succ_castSucc]
    exact Nat.add_assoc _ _ _

theorem countTrue_testBit (n x : Nat) : Gf2.countTrue n (fun i => x.testBit i.val) = packedWeight n x := by
  induction n generalizing x with
  | zero => rfl
  | succ n ih =>
    rw [Gf2.countTrue_succ, packedWeight, ← ih]
    congr 1
    · show (x.testBit 0).toNat = x % 2
      rw [Nat.testBit_zero]
      rcases Nat.mod_two_eq_zero_or_one x with h | h <;> simp [h]
    · congr 1
      funext i
      exact Nat.testBit_succ x i.val

theorem Gf2.wt_eq_packedWeight {n : Nat} (v : BitVec n) : Gf2.wt v = packedWeight n v.toNat :=
  countTrue_testBit n v.toNat

/-- The sum of the rows `j < k` that `f` selects. -/
def selectedRows (rows : Nat → Nat) (f : Nat → Bool) : Nat → Nat
  | 0 => 0
  | k + 1 => selectedRows rows f k ^^^ if f k then rows k else 0

/-- `f n`, with `n` brought to a numeral before it is used, so that the kernel evaluates it once. -/
def onNumeral (f : Nat → Bool) : Nat → Bool
  | 0 => f 0
  | n + 1 => f (n + 1)

theorem onNumeral_eq (f : Nat → Bool) (n : Nat) : onNumeral f n = f n := by cases n <;> rfl

/-- A test that every sum of rows `j < k`, added to `acc`, passes. -/
def allSums (rows : Nat → Nat) (test : Nat → Bool) : Nat → Nat → Bool
  | 0, acc => test acc
  | k + 1, acc => allSums rows test k acc && onNumeral (allSums rows test k) (acc ^^^ rows k)

theorem allSums_spec {rows : Nat → Nat} {test : Nat → Bool} (f : Nat → Bool) :
    ∀ k acc, allSums rows test k acc = true → test (acc ^^^ selectedRows rows f k) = true := by
  intro k
  induction k with
  | zero => intro acc h; simpa [selectedRows, allSums] using h
  | succ k ih =>
    intro acc h
    rw [allSums, onNumeral_eq, Bool.and_eq_true] at h
    rw [selectedRows]
    by_cases hf : f k
    · have := ih _ h.2
      rwa [if_pos hf, Nat.xor_comm (selectedRows rows f k), ← Nat.xor_assoc]
    · simpa [hf] using ih _ h.1

theorem testBit_selectedRows (rows : Nat → Nat) (f : Nat → Bool) (i : Nat) :
    ∀ k, (selectedRows rows f k).testBit i = Gf2.xorSum k fun j => f j.val && (rows j.val).testBit i := by
  intro k
  induction k with
  | zero => simp [selectedRows, Gf2.xorSum]
  | succ k ih =>
    rw [selectedRows, Gf2.xorSum, Nat.testBit_xor, ih]
    congr 1
    by_cases hf : f k <;> simp [hf]

/-- Row `j` of `[I | B]` packed, for the default B. -/
def defaultRows (j : Nat) : Nat :=
  [0xA3B001, 0xD1D002, 0xE8E004, 0xB47008, 0xDA3010, 0xED1020,
   0xF68040, 0xBB4080, 0x9DA100, 0x8ED200, 0xC76400, 0x7FF800].getD j 0

theorem defaultRows_low (j i : Fin 12) : (defaultRows j.val).testBit i.val = decide (i = j) := by
  revert j i; decide +kernel

theorem defaultRows_high (j i : Fin 12) : (defaultRows j.val).testBit (12 + i.val) = matB defaultConfig j i := by
  revert j i; decide +kernel

theorem extCodeword_default (m : Vec12) :
    (extCodeword defaultConfig m).toNat = selectedRows defaultRows m.toNat.testBit 12 := by
  refine Nat.eq_of_testBit_eq fun i => ?_
  rw [testBit_selectedRows]
  show (extCodeword defaultConfig m).getLsbD i = _
  rw [extCodeword, Gf2.getLsbD_cat]
  by_cases h : i < 12
  · rw [if_pos h, Gf2.xorSum_congr fun j => congrArg _ (defaultRows_low j ⟨i, h⟩),
      Gf2.xorSum_single ⟨i, h⟩ _ fun j hj => by simp [Ne.symm hj]]
    simp [BitVec.getLsbD]
  · rw [if_neg h]
    by_cases h' : i < 24
    · obtain ⟨k, rfl⟩ : ∃ k : Fin 12, i = 12 + k.val := ⟨⟨i - 12, by omega⟩, by simp; omega⟩
      rw [Nat.add_sub_cancel_left, Gf2.xorSum_congr fun j => congrArg _ (defaultRows_high j k)]
      exact Gf2.get_vecmat m (matB defaultConfig) k
    · have hrow : ∀ j : Fin 12, (defaultRows j.val).testBit i = false := by
        intro j
        have hlt : defaultRows j.val < 2 ^ 24 := by revert j; decide +kernel
        exact Nat.testBit_lt_two_pow (Nat.lt_of_lt_of_le hlt (Nat.pow_le_pow_right (by omega) (by omega)))
      rw [Gf2.xorSum_congr fun j => by rw [hrow, Bool.and_false], Gf2.xorSum_false]
      exact BitVec.getLsbD_of_ge _ _ (by omega)

/-- A packed word of the 24-bit code and its weight: the weight is even, and at least 8 unless the message is zero. -/
def goodWeight (x weight : Nat) : Bool :=
  Nat.beq (Nat.mod weight 2) 0 && (Nat.beq (Nat.mod x 4096) 0 || Nat.ble 8 weight)

/-- The walk over all 4096 codewords. -/
theorem defaultSums :
    allSums defaultRows (fun x => onNumeral (goodWeight x) (packedWeight 24 x)) 12 0 = true := by
  decide +kernel

theorem extCodeword_default_weight (m : Vec12) :
    Gf2.wt (extCodeword defaultConfig m) % 2 = 0 ∧ (m ≠ 0#12 → 8 ≤ Gf2.wt (extCodeword defaultConfig m)) := by
  have h := allSums_spec m.toNat.testBit 12 0 defaultSums
  rw [Nat.zero_xor, ← extCodeword_default, onNumeral_eq, ← Gf2.wt_eq_packedWeight] at h
  simp only [goodWeight, Bool.and_eq_true, Bool.or_eq_true, Nat.beq_eq, Nat.ble_eq] at h
  refine ⟨h.1, fun hm => h.2.resolve_left fun h0 => hm ?_⟩
  have hl : (Gf2.low (extCodeword defaultConfig m)).toNat = 0 := by
    simpa [Gf2.low, BitVec.extractLsb'_toNat] using (show (extCodeword defaultConfig m).toNat % 4096 = 0 from h0)
  rw [low_extCodeword] at hl
  exact BitVec.eq_of_toNat_eq (by simpa using hl)

theorem extCodeword_xor (cfg : Config) (m m' : Vec12) :
    Gf2.xorWith (extCodeword cfg m) (extCodeword cfg m') = extCodeword cfg (Gf2.xorWith m m') := by
  rw [← Gf2.cat_low_high (Gf2.xorWith _ _), ← Gf2.cat_low_high (extCodeword cfg (Gf2.xorWith m m'))]
  rw [Gf2.low_xorWith, Gf2.high_xorWith, low_extCodeword, low_extCodeword, low_extCodeword, high_extCodeword, high_extCodeword, high_extCodeword]
  congr 1
  refine Gf2.ext fun i => ?_
  simp only [Gf2.get_xorWith, Gf2.get_vecmat, ← Gf2.xorSum_xor]
  exact Gf2.xorSum_congr fun j => by cases Gf2.get m j <;> cases Gf2.get m' j <;> simp

/-- The spec's default B meets what rule R34 asks of any B. -/
theorem meetsR34_default : meetsR34 defaultConfig := by
  refine ⟨by decide +kernel, fun m => (extCodeword_default_weight m).1, fun m m' hm => ?_, ?_⟩
  · rw [extCodeword_xor]
    refine (extCodeword_default_weight _).2 fun h => hm ?_
    exact BitVec.xor_eq_zero_iff.mp h
  · exact ⟨0x001#12, 0x000#12, by decide, by decide +kernel⟩

end Sys2Proof.Machine
end

