-- ==== Sys2Proof/Laws/State.lean ====
section
/-! SUPPORT. One lemma per field of `State` and per update of it, so that no later proof unfolds a record update; and
what answering a command is. -/

namespace Sys2Proof.Machine

@[simp] theorem State.record_cfg (s : State) (cmd rsp : Word) : (s.record cmd rsp).cfg = s.cfg := rfl
@[simp] theorem State.record_pending (s : State) (cmd rsp : Word) : (s.record cmd rsp).pending = s.pending := rfl
@[simp] theorem State.record_history (s : State) (cmd rsp : Word) :
    (s.record cmd rsp).history = s.history ++ [{ cmd := cmd, rsp := rsp }] := rfl

@[simp] theorem State.signal_cfg (s : State) (cmd : Word) (k : FailKind) : (s.signal cmd k).cfg = s.cfg := rfl
@[simp] theorem State.signal_pending (s : State) (cmd : Word) (k : FailKind) :
    (s.signal cmd k).pending = s.pending := rfl
@[simp] theorem State.signal_history (s : State) (cmd : Word) (k : FailKind) :
    (s.signal cmd k).history = s.history ++ [{ cmd := cmd, rsp := failWord k }] := rfl

@[simp] theorem State.present_cfg (s : State) (cmd : Word) : (s.present cmd).cfg = s.cfg := rfl
@[simp] theorem State.present_pending (s : State) (cmd : Word) : (s.present cmd).pending = s.pending ++ [cmd] := rfl
@[simp] theorem State.present_history (s : State) (cmd : Word) : (s.present cmd).history = s.history := rfl

@[simp] theorem State.withFetchWord_cfg (s : State) (nbits w : Nat) : (s.withFetchWord nbits w).cfg = s.cfg := rfl
@[simp] theorem State.withFetchWord_pending (s : State) (nbits w : Nat) :
    (s.withFetchWord nbits w).pending = tableWord nbits w :: s.pending := rfl
@[simp] theorem State.withFetchWord_history (s : State) (nbits w : Nat) :
    (s.withFetchWord nbits w).history = s.history := rfl

@[simp] theorem State.reset_cfg : State.reset.cfg = defaultConfig := rfl
@[simp] theorem State.reset_pending : State.reset.pending = [] := rfl
@[simp] theorem State.reset_history : State.reset.history = [] := rfl

theorem State.takeCommand_nil (s : State) (h : s.pending = []) : s.takeCommand = none := by
  simp [State.takeCommand, h]

theorem State.takeCommand_cons (s : State) {cmd : Word} {rest : List Word} (h : s.pending = cmd :: rest) :
    s.takeCommand = some (cmd, { s with pending := rest }) := by
  simp [State.takeCommand, h]

/-- Answering a command records it with the word of its outcome, whether it completed or failed. -/
theorem State.answer_eq_record (s : State) (cmd : Word) (o : OpOutcome Vec24) :
    s.answer cmd o = s.record cmd (rspWord o) := by
  cases o <;> rfl

@[simp] theorem State.answer_cfg (s : State) (cmd : Word) (o : OpOutcome Vec24) : (s.answer cmd o).cfg = s.cfg := by
  rw [State.answer_eq_record, State.record_cfg]
@[simp] theorem State.answer_pending (s : State) (cmd : Word) (o : OpOutcome Vec24) :
    (s.answer cmd o).pending = s.pending := by
  rw [State.answer_eq_record, State.record_pending]
@[simp] theorem State.answer_history (s : State) (cmd : Word) (o : OpOutcome Vec24) :
    (s.answer cmd o).history = s.history ++ [{ cmd := cmd, rsp := rspWord o }] := by
  rw [State.answer_eq_record, State.record_history]

end Sys2Proof.Machine
end

