-- ==== Sys2Proof/Laws/Exec.lean ====
section
/-! SUPPORT. Everything an instruction and a step can do, said once. -/

namespace Sys2Proof.Machine

/-- Executing an instruction records one transaction: its word, and the response word of its outcome. -/
theorem exec_eq_record (i : Instr) (s : State) :
    exec i s = .next (s.record (encode i) (rspWord (outcomeOf s.cfg i))) := by
  cases i <;> simp only [exec, execEnc, execSyn, execDec, outcomeOf, State.answer_eq_record]

/-- With no command presented the step faults. -/
theorem step_of_nil (s : State) (h : s.pending = []) : step s = .fault .noCommand := by
  simp [step, State.takeCommand_nil s h]

/-- With a command presented the step is the match on its decoding. -/
theorem step_of_cons (s : State) {cmd : Word} {rest : List Word} (h : s.pending = cmd :: rest) :
    step s = match decode cmd with
      | .ok i => exec i { s with pending := rest }
      | .error _ => .next (State.answerReserved { s with pending := rest } cmd) := by
  cases hd : decode cmd <;> simp [step, State.takeCommand_cons s h, hd]

/-- What any answered step did: a command was pending, it has been taken, and one transaction has been recorded. -/
theorem step_next_cases {s t : State} (h : step s = .next t) :
    ∃ cmd rest, s.pending = cmd :: rest ∧
      ((∃ i, decode cmd = .ok i ∧
          t = State.record { s with pending := rest } (encode i) (rspWord (outcomeOf s.cfg i))) ∨
       (∃ e, decode cmd = .error e ∧ t = State.record { s with pending := rest } cmd (failWord .illegalOp))) := by
  cases hp : s.pending with
  | nil => rw [step_of_nil s hp] at h; cases h
  | cons cmd rest =>
    refine ⟨cmd, rest, rfl, ?_⟩
    rw [step_of_cons s hp] at h
    cases hd : decode cmd with
    | ok i =>
      rw [hd] at h
      simp only [exec_eq_record, Host.Outcome.next.injEq] at h
      exact .inl ⟨i, rfl, h.symm⟩
    | error e =>
      rw [hd] at h
      simp only [Host.Outcome.next.injEq] at h
      exact .inr ⟨e, rfl, h.symm⟩

end Sys2Proof.Machine
end

