-- ==== Sys2Proof/Laws/Locator.lean ====
section
/-! SUPPORT. What the ordered scan, the patterns and the extension of the decoder answer. -/

namespace Sys2Proof.Machine

theorem scanOrder_eq_finRange : scanOrder = List.finRange 12 := by decide

/-- The scan's answer is the lowest row that passes. -/
theorem firstRow_eq_some {test : Fin 12 → Bool} {k : Fin 12} :
    firstRow test = some k ↔ test k = true ∧ ∀ j, j < k → test j = false := by
  rw [firstRow, scanOrder_eq_finRange, ← List.ofFn_id, List.find?_ofFn_eq_some]
  simp

/-- The scan has no answer exactly when no row passes. -/
theorem firstRow_eq_none {test : Fin 12 → Bool} : firstRow test = none ↔ ∀ k, test k = false := by
  simp [firstRow, scanOrder_eq_finRange]

@[simp] theorem low_patternA (s : Vec12) : Gf2.low (patternA s) = s := Gf2.low_cat _ _
@[simp] theorem high_patternA (s : Vec12) : Gf2.high (patternA s) = Gf2.zeros 12 := Gf2.high_cat _ _
@[simp] theorem low_patternB (cfg : Config) (s : Vec12) (k : Fin 12) :
    Gf2.low (patternB cfg s k) = Gf2.xorWith s (rowB cfg k) := Gf2.low_cat _ _
@[simp] theorem high_patternB (cfg : Config) (s : Vec12) (k : Fin 12) :
    Gf2.high (patternB cfg s k) = Gf2.unit k := Gf2.high_cat _ _
@[simp] theorem low_patternC1 (s2 : Vec12) : Gf2.low (patternC1 s2) = Gf2.zeros 12 := Gf2.low_cat _ _
@[simp] theorem high_patternC1 (s2 : Vec12) : Gf2.high (patternC1 s2) = s2 := Gf2.high_cat _ _
@[simp] theorem low_patternC2 (cfg : Config) (s2 : Vec12) (k : Fin 12) :
    Gf2.low (patternC2 cfg s2 k) = Gf2.unit k := Gf2.low_cat _ _
@[simp] theorem high_patternC2 (cfg : Config) (s2 : Vec12) (k : Fin 12) :
    Gf2.high (patternC2 cfg s2 k) = Gf2.xorWith s2 (rowB cfg k) := Gf2.high_cat _ _

/-- The extended vector holds the received bits and then the appended one. -/
theorem getLsbD_extend (r : Vec23) (i : Nat) :
    (Golay.extend r).getLsbD i = if i < 23 then r.getLsbD i else (decide (i = 23) && appendedBit r) := by
  rw [Golay.extend, Gf2.getLsbD_cat]
  by_cases h : i < 23
  · simp [h]
  · by_cases h' : i = 23
    · subst h'; simp
    · have : i - 23 ≠ 0 := by omega
      simp [h, h', BitVec.getLsbD_ofBool, this]

end Sys2Proof.Machine
end

