-- ==== Sys2Proof/Laws/PerInstr.lean ====
section
/-! SUPPORT. Statements about every instruction as syntax, one lemma per constructor. `OpByte`: the word of an
instruction carries its row's operation code in `cmd[31:24]` (30_encoding.md rules R61 and R63). -/

namespace Sys2Proof.Laws

/-- The operation code of an instruction's row (rule R63). -/
def OpByte.code : Instr → BitVec 8
  | .enc _ _ => 0x01#8
  | .syn _ => 0x02#8
  | .dec _ _ => 0x03#8

def OpByte.Statement (i : Instr) : Prop := opOf (encode i) = OpByte.code i

theorem OpByte.enc (z : BitVec 12) (m : Vec12) : OpByte.Statement (.enc z m) := by
  show (opEnc ++ (z ++ m) : BitVec 32).extractLsb' 24 8 = _
  rw [BitVec.extractLsb'_append_eq_left]
  rfl

theorem OpByte.syn (w : Vec24) : OpByte.Statement (.syn w) := by
  show (opSyn ++ w : BitVec 32).extractLsb' 24 8 = _
  rw [BitVec.extractLsb'_append_eq_left]
  rfl

theorem OpByte.dec (z : BitVec 1) (r : Vec23) : OpByte.Statement (.dec z r) := by
  show (opDec ++ (z ++ r) : BitVec 32).extractLsb' 24 8 = _
  rw [BitVec.extractLsb'_append_eq_left]
  rfl

end Sys2Proof.Laws
end

