-- ==== Sys2Proof/Laws/Run.lean ====
section
/-! SUPPORT. A run one step at a time. -/

namespace Sys2Proof.Machine

theorem run_of_next (M : Host.Core) (n : Nat) (s t : M.State) (h : M.step s = .next t) :
    M.run (n + 1) s = M.run n t := by
  simp only [Host.Core.run, h]

theorem run_of_fault (M : Host.Core) (n : Nat) (s : M.State) (r : M.Fault) (h : M.step s = .fault r) :
    M.run (n + 1) s = .fault r := by
  simp only [Host.Core.run, h]

theorem core_run_of_next (n : Nat) {s t : State} (h : step s = .next t) :
    Sys2Proof.core.run (n + 1) s = Sys2Proof.core.run n t := run_of_next Sys2Proof.core n s t h

theorem core_run_of_fault (n : Nat) {s : State} {r : Fault} (h : step s = .fault r) :
    Sys2Proof.core.run (n + 1) s = .fault r := run_of_fault Sys2Proof.core n s r h

end Sys2Proof.Machine
end

