-- ==== Sys2Proof/Laws/Words.lean ====
section
/-! SUPPORT. The bits and the packed values of command and response words. -/

namespace Sys2Proof

theorem getLsbD_encode_enc (z : BitVec 12) (m : Vec12) (i : Nat) :
    (encode (.enc z m)).getLsbD i =
      if i < 12 then m.getLsbD i else if i < 24 then z.getLsbD (i - 12) else opEnc.getLsbD (i - 24) := by
  show (opEnc ++ (z ++ m)).getLsbD i = _
  rw [BitVec.getLsbD_append, BitVec.getLsbD_append]
  by_cases h : i < 12
  · have h' : i < 12 + 12 := by omega
    simp only [h, h', if_true]
  · by_cases h' : i < 24
    · simp only [h, h', if_true, if_false]
    · simp only [h, h', if_false]

theorem getLsbD_encode_syn (w : Vec24) (i : Nat) :
    (encode (.syn w)).getLsbD i = if i < 24 then w.getLsbD i else opSyn.getLsbD (i - 24) := by
  show (opSyn ++ w).getLsbD i = _
  rw [BitVec.getLsbD_append]

theorem getLsbD_encode_dec (z : BitVec 1) (r : Vec23) (i : Nat) :
    (encode (.dec z r)).getLsbD i =
      if i < 23 then r.getLsbD i else if i < 24 then z.getLsbD (i - 23) else opDec.getLsbD (i - 24) := by
  show (opDec ++ (z ++ r)).getLsbD i = _
  rw [BitVec.getLsbD_append, BitVec.getLsbD_append]
  by_cases h : i < 23
  · have h' : i < 1 + 23 := by omega
    simp only [h, h', if_true]
  · by_cases h' : i < 24
    · simp only [h, h', if_true, if_false]
    · simp only [h, h', if_false]

theorem toNat_encode_enc (z : BitVec 12) (m : Vec12) :
    (encode (.enc z m)).toNat = 0x01 * 2 ^ 24 + 2 ^ 12 * z.toNat + m.toNat := by
  show (opEnc ++ (z ++ m)).toNat = _
  rw [BitVec.toNat_append, BitVec.toNat_append, ← Nat.shiftLeft_add_eq_or_of_lt m.isLt,
    ← Nat.shiftLeft_add_eq_or_of_lt (by have := z.isLt; have := m.isLt; omega), Nat.shiftLeft_eq, Nat.shiftLeft_eq,
    ← Nat.add_assoc, Nat.mul_comm z.toNat]
  rfl

theorem toNat_encode_syn (w : Vec24) : (encode (.syn w)).toNat = 0x02 * 2 ^ 24 + w.toNat := by
  show (opSyn ++ w).toNat = _
  rw [BitVec.toNat_append, ← Nat.shiftLeft_add_eq_or_of_lt w.isLt, Nat.shiftLeft_eq]
  rfl

theorem toNat_encode_dec (z : BitVec 1) (r : Vec23) :
    (encode (.dec z r)).toNat = 0x03 * 2 ^ 24 + 2 ^ 23 * z.toNat + r.toNat := by
  show (opDec ++ (z ++ r)).toNat = _
  rw [BitVec.toNat_append, BitVec.toNat_append, ← Nat.shiftLeft_add_eq_or_of_lt r.isLt,
    ← Nat.shiftLeft_add_eq_or_of_lt (by have := z.isLt; have := r.isLt; omega), Nat.shiftLeft_eq, Nat.shiftLeft_eq,
    ← Nat.add_assoc, Nat.mul_comm z.toNat]
  rfl

/-- The `op` field is the top byte of the packed word. -/
theorem toNat_opOf (cmd : Word) : (opOf cmd).toNat = cmd.toNat / 2 ^ 24 := by
  have h := cmd.isLt
  rw [opOf, BitVec.extractLsb'_toNat, Nat.shiftRight_eq_div_pow, Nat.mod_eq_of_lt]
  omega

end Sys2Proof

namespace Sys2Proof.Machine

theorem toNat_okWord (v : Vec24) : (okWord v).toNat = v.toNat := by
  show (statusOk ++ v).toNat = _
  rw [BitVec.toNat_append, ← Nat.shiftLeft_add_eq_or_of_lt v.isLt, Nat.shiftLeft_eq]
  simp [statusOk]

theorem toNat_failWord (k : FailKind) : (failWord k).toNat = 2 ^ 24 * k.status.toNat := by
  cases k <;> rfl

theorem getLsbD_okWord (v : Vec24) (i : Nat) : (okWord v).getLsbD i = v.getLsbD i := by
  rw [BitVec.getLsbD, toNat_okWord, BitVec.getLsbD]

@[simp] theorem getLsbD_resultField {n : Nat} (v : BitVec n) (i : Nat) :
    (resultField v).getLsbD i = (decide (i < 24) && v.getLsbD i) := by
  simp [resultField]

@[simp] theorem fieldIsZero_iff {n : Nat} (z : BitVec n) : fieldIsZero z = true ↔ z = 0#n := by
  simp [fieldIsZero]

end Sys2Proof.Machine
end

