-- ==== Sys2Proof/Tests/Slice0.lean ====
section
/-! SUPPORT. The model's own tests. Expected values come from the spec: the row of 95_test_vectors.md or the rule is named
with each. Then, for every obligation with hypotheses, a state and operands that meet them all. -/

/- One theorem is checked at a time, which keeps the memory of the check small. -/
set_option Elab.async false

namespace Sys2Proof.Tests

open Sys2Proof Sys2Proof.Machine Sys2Proof.Reference

/-- The machine after reset with these commands pending. -/
def withCommands (cmds : List Word) : State := { State.reset with pending := cmds }

/-- The response of one step. -/
def lastResponse (o : Host.Outcome State Fault Refusal) : Option Word :=
  match o with
  | .next t => t.history.getLast?.map Transaction.rsp
  | .fault _ => none
  | .refused _ => none

/-- Whether a step answered. -/
def answered (o : Host.Outcome State Fault Refusal) : Bool :=
  match o with
  | .next _ => true
  | .fault _ => false
  | .refused _ => false

/-! ### Well-formedness and decoding -/

theorem test_wellFormed_refuses_enc_field : (Instr.enc 0x001#12 0#12).wellFormed = false := by decide
theorem test_wellFormed_refuses_dec_field : (Instr.dec 1#1 0#23).wellFormed = false := by decide
theorem test_wellFormed_admits : (Instr.enc 0#12 0xFFF#12).wellFormed = true ∧
    (Instr.syn 0xFFFFFF#24).wellFormed = true ∧ (Instr.dec 0#1 0x7FFFFF#23).wellFormed = true := by decide

/-- Words from the `encoding` patterns of spec/opcode_table.json: ENC with E8's message, ENC with `z` = 0x001 (F1). -/
theorem test_decode_enc :
    decodeTableWord 32 0b00000001000000000000101001011100 = some (.enc 0#12 0xA5C#12) ∧
    decodeTableWord 32 0b00000001000000000001000000000000 = some (.enc 0x001#12 0#12) := by decide +kernel

/-- SYN with Y6's operand. -/
theorem test_decode_syn :
    decodeTableWord 32 0b00000010100000010000101001011100 = some (.syn 0x810A5C#24) := by decide +kernel

/-- DEC with D25's operand, and with `z` = 1 (F2). -/
theorem test_decode_dec :
    decodeTableWord 32 0b00000011000100100011010001010110 = some (.dec 0#1 0x123456#23) ∧
    decodeTableWord 32 0b00000011100000000000000000000000 = some (.dec 1#1 0#23) := by decide +kernel

/-- The reserved codes on either side of the defined ones (F4, F5). -/
theorem test_decode_reserved :
    decodeTableWord 32 0x00000000 = none ∧ decodeTableWord 32 0x04000000 = none := by decide +kernel

theorem test_encode_words : encode (.enc 0#12 0x001#12) = 0x01000001#32 ∧
    encode (.syn 0x800000#24) = 0x02800000#32 ∧ encode (.dec 0#1 0x23B001#23) = 0x0323B001#32 := by decide +kernel

/-! ### One step of each instruction -/

/-- E10: a message whose codeword mixes many rows. -/
theorem test_enc_codeword : lastResponse (step (withCommands [0x01000F09#32])) = some 0x003C2F09#32 := by
  decide +kernel

/-- F1: the lowest bit above the message is refused, not masked away. -/
theorem test_enc_thirteenth_bit : lastResponse (step (withCommands [0x01001000#32])) = some 0x01000000#32 := by
  decide +kernel

/-- Y11: both halves of the operand count. -/
theorem test_syn_both_halves : lastResponse (step (withCommands [0x02811A5C#32])) = some 0x00000A3B#32 := by
  decide +kernel

/-- Y4: the last row of H. -/
theorem test_syn_last_row : lastResponse (step (withCommands [0x02800000#32])) = some 0x000007FF#32 := by
  decide +kernel

/-- D14: case C2 at row 4, three errors across both halves and the parity position untouched. -/
theorem test_dec_case_c2 : lastResponse (step (withCommands [0x033EFFEF#32])) = some 0x00000FFF#32 := by
  decide +kernel

/-- D16: four errors give a wrong message with status Ok. -/
theorem test_dec_four_errors : lastResponse (step (withCommands [0x03010A53#32])) = some 0x00000853#32 := by
  decide +kernel

/-- F6: a reserved code; the data are ignored. -/
theorem test_reserved_op : lastResponse (step (withCommands [0xFF123456#32])) = some 0x04000000#32 := by
  decide +kernel

/-- 93_implementation_defined.md U10: no command, no step. -/
theorem test_no_command : answered (step State.reset) = false := by decide

/-- A presented table word is the very next command to run, before those already chosen. -/
theorem test_withFetchWord_runs_next :
    answered (step (State.reset.withFetchWord 32 0x01000000)) = true ∧
    lastResponse (step ((withCommands [0#32]).withFetchWord 32 0x01000001)) = some 0x0023B001#32 := by decide +kernel

/-! ### The units from inside -/

/-- X1 and D5: the appended bit is 1 on an even received weight. -/
theorem test_extend_literal_parity : Golay.extend 0x01027D#23 = 0x81027D#24 := by decide +kernel

/-- K8: no row passes on `s`, and the last row passes on `s2`. -/
theorem test_locate_c2_last_row :
    Golay.locate defaultConfig 0x625#12 = some { stage := .c2 11, u := 0x900800#24 } := by decide +kernel

/-- K9: a syndrome of even weight that no case takes. -/
theorem test_locate_fails : Golay.locate defaultConfig 0x00F#12 = none := by decide +kernel

/-- 42_syndrome.md rule R112: an example of the second syndrome. -/
theorem test_syn2_example : Golay.syn2 defaultConfig 0x1B2#12 = 0xC01#12 := by decide +kernel

/-- S1 and 40_gf2_primitives.md rule R89: the text form lists index 0 first; another character is rejected. -/
theorem test_text_form : toBitString 0xA3B#12 = "110111000101".toList ∧
    fromBitString ['1', '2'] = .fail .invalidFormat := by decide +kernel

/-- 30_encoding.md rule R70: `ENC 0x001` is 0x01000001, and program P1's first line. -/
theorem test_assemble : assemble "ENC 0x001".toList = .ok 0x01000001#32 ∧
    assemble "c  = ENC 0xA5C ; send".toList = .ok 0x01000A5C#32 ∧
    assemble "ENC '1000'".toList = .error .badOperand := by decide +kernel

/-! ### Witnesses: the hypotheses of each obligation can be met, clause by clause -/

theorem witness_EncodeOfDecodeIsTheWord : decode 0x01FFF000#32 = .ok (.enc 0xFFF#12 0#12) := by decide +kernel

theorem witness_OperandsAreSlicesOfData : decode 0x01800FFF#32 = .ok (.enc 0x800#12 0xFFF#12) ∧
    decode 0x02FFFFFF#32 = .ok (.syn 0xFFFFFF#24) ∧ decode 0x037FFFFF#32 = .ok (.dec 0#1 0x7FFFFF#23) := by
  decide +kernel

theorem witness_StepRunsTheDecodedInstruction :
    (withCommands [0x0323B001#32, 0#32]).pending = 0x0323B001#32 :: [0#32] ∧
    decode 0x0323B001#32 = .ok (.dec 0#1 0x23B001#23) := by decide +kernel

theorem witness_StepStopsOnlyWithoutACommand :
    State.reset.pending = [] ∧ (withCommands [0#32]).pending ≠ [] := by decide

/-- For every statement whose only hypothesis is that a command is pending: StepIsThePackedReference,
FailuresAreTestedInOrder, StatusCodesAreAsTabulated. -/
theorem witness_command_pending : (withCommands [0x03123456#32]).pending = 0x03123456#32 :: [] := by decide

theorem witness_ReservedOpEndsWithIllegalOp :
    (withCommands [0x00FFFFFF#32]).pending = 0x00FFFFFF#32 :: [] ∧ (0x00FFFFFF#32).toNat / 2 ^ 24 = 0 ∧
    (withCommands [0x04000000#32]).pending = 0x04000000#32 :: [] ∧ 4 ≤ (0x04000000#32).toNat / 2 ^ 24 ∧
    4 ≤ (0xFF000000#32).toNat / 2 ^ 24 := by decide

theorem witness_MustBeZeroBitsEndWithInvalidLength :
    (withCommands [0x01001000#32]).pending = 0x01001000#32 :: [] ∧
    (0x01001000#32).toNat / 2 ^ 24 = 1 ∧ (0x01001000#32).toNat % 2 ^ 24 / 2 ^ 12 ≠ 0 ∧
    (0x03800000#32).toNat / 2 ^ 24 = 3 ∧ (0x03800000#32).toNat % 2 ^ 24 / 2 ^ 23 ≠ 0 ∧
    (0x02FFFFFF#32).toNat / 2 ^ 24 = 2 := by decide

theorem witness_ResultsAreZeroExtended :
    lastResponse (step (withCommands [0#32])) = some 0x04000000#32 ∧
    decode 0x01000FFF#32 = .ok (.enc 0#12 0xFFF#12) ∧ decode 0x02FFFFFF#32 = .ok (.syn 0xFFFFFF#24) ∧
    decode 0x037FFFFF#32 = .ok (.dec 0#1 0x7FFFFF#23) ∧
    Golay.decode (withCommands []).cfg 0x7FFFFF#23 = .ok 0xFFF#12 := by decide +kernel

theorem witness_ExecOnlyRecordsItsTransaction : answered (exec (.enc 1#12 0#12) State.reset) = true ∧
    answered (exec (.syn 0#24) State.reset) = true ∧ answered (exec (.dec 0#1 0#23) State.reset) = true := by
  decide +kernel

/-- One received vector for each stage: D5, D6, D9 and D11. Also the witness of MessageByCase and
DecodeIsThePackedProcedure. -/
theorem witness_DecCompletesWhenAnErrorIsLocated :
    Golay.locate State.reset.cfg (Golay.syndrome State.reset.cfg (Golay.extend 0x01027D#23)) =
      some { stage := .a, u := 0x000821#24 } ∧
    Golay.locate State.reset.cfg (Golay.syndrome State.reset.cfg (Golay.extend 0x410A5C#23)) =
      some { stage := .b 10, u := 0x400000#24 } ∧
    Golay.locate State.reset.cfg (Golay.syndrome State.reset.cfg (Golay.extend 0x411A5C#23)) =
      some { stage := .c1, u := 0xC01000#24 } ∧
    Golay.locate State.reset.cfg (Golay.syndrome State.reset.cfg (Golay.extend 0x013A5D#23)) =
      some { stage := .c2 0, u := 0x003001#24 } := by decide +kernel

theorem witness_DecDefaultAlwaysGivesTheNearestCodeword : (withCommands []).cfg = defaultConfig := rfl

theorem witness_ConstantMatricesAreAsStated :
    (11 : Fin 23).val ≤ 11 ∧ 12 ≤ (12 : Fin 23).val ∧ (11 : Fin 24).val ≤ 11 ∧ 12 ≤ (23 : Fin 24).val := by decide

theorem witness_BitOperationsActOnTheirIndex : 11 < 12 ∧ 12 ≤ 12 ∧ (12 : Nat) ≠ 24 := by decide

theorem witness_ProductIsTheSumOfSelectedRows : (List.finRange 12).reverse.Perm (List.finRange 12) :=
  List.reverse_perm _

theorem witness_TextFormRoundTrips : fromBitString ['0', '1'] = .ok 2#2 := by decide +kernel

/-- For every statement about a B that meets R34: ExtendedCodewordHasZeroSyndrome, SynOfEvenExtensionChecksACodeword,
ExtensionHasOddWeight, RoundTripTakesCaseBRowEleven, PerfectCodeNeverFailsToDecode. -/
theorem witness_meetsR34 : meetsR34 defaultConfig := meetsR34_default

/-- For SecondSyndromeIsTheProductWithB and SyndromeIsThatOfTheErrorAlone. -/
theorem witness_involution :
    ∀ j i, oddMany (fun k => matB defaultConfig j k && matB defaultConfig k i) = identity12 j i := by decide +kernel

theorem witness_CodewordWeightsAndDistance : (0#12 : Vec12) ≠ 0x001#12 := by decide

/-- K2, K5, K6 and K7: a located syndrome for each stage of the first part; and errors of weight at most 3 for each
place of the second, at the most errors each place admits. -/
theorem witness_LocatorFindsTheErrorByWhereItLies :
    Golay.locate defaultConfig 0x821#12 = some { stage := .a, u := 0x000821#24 } ∧
    Golay.locate defaultConfig 0x943#12 = some { stage := .b 3, u := 0x008204#24 } ∧
    Golay.locate defaultConfig 0x1B2#12 = some { stage := .c1, u := 0xC01000#24 } ∧
    Golay.locate defaultConfig 0x727#12 = some { stage := .c2 0, u := 0x003001#24 } ∧
    (meetsR34 defaultConfig ∧ Gf2.wt 0x821#12 + Gf2.wt 0x000#12 ≤ 3) ∧
    (Gf2.wt 0x801#12 + Gf2.wt 0x800#12 ≤ 3 ∧ (0x800#12 : Vec12) = Gf2.unit 11) ∧
    (Gf2.wt 0x000#12 + Gf2.wt 0xC01#12 ≤ 3 ∧ 2 ≤ Gf2.wt 0xC01#12) ∧
    (Gf2.wt 0x001#12 + Gf2.wt 0x003#12 ≤ 3 ∧ 2 ≤ Gf2.wt 0x003#12 ∧ (0x001#12 : Vec12) = Gf2.unit 0) :=
  ⟨by decide +kernel, by decide +kernel, by decide +kernel, by decide +kernel, ⟨meetsR34_default, by decide +kernel⟩,
    by decide +kernel, by decide +kernel, by decide +kernel⟩

theorem witness_MessageByCase :
    Golay.locate defaultConfig (Golay.syndrome defaultConfig (Golay.extend 0x2AAAAA#23)) =
      some { stage := .c2 2, u := 0x009004#24 } := by decide +kernel

theorem witness_UpToThreeErrorsAreCorrected :
    meetsR34 defaultConfig ∧ Gf2.wt 0x000821#23 ≤ 3 ∧ Gf2.wt 0x000000#23 ≤ 3 :=
  ⟨meetsR34_default, by decide +kernel, by decide +kernel⟩

theorem witness_FourOrMoreErrorsGiveAWrongMessage : 4 ≤ Gf2.wt 0x00F000#23 ∧ 4 ≤ Gf2.wt 0x7FFFFF#23 := by
  decide +kernel

theorem witness_LocatorCountsOverAllSyndromes : Gf2.wt 0x625#12 % 2 = 1 := by decide +kernel

/-- Row 0 passes on `B[0]`, for which cases B and C1 both hold. -/
theorem witness_OverlappingCasesAgree : meetsR34 defaultConfig ∧
    Gf2.wt (0xA3B#12 ^^^ rowB defaultConfig 0) ≤ 2 ∧
    patternB defaultConfig 0xA3B#12 0 ∈ candidates defaultConfig 0xA3B#12 ∧
    patternC1 (Golay.syn2 defaultConfig 0xA3B#12) ∈ candidates defaultConfig 0xA3B#12 :=
  ⟨meetsR34_default, by decide +kernel, by decide +kernel, by decide +kernel⟩

/-- A state with a transaction of the history (F4) and a command pending (E2). -/
def midRun : State :=
  { cfg := defaultConfig, pending := [0x01000001#32], history := [{ cmd := 0#32, rsp := 0x04000000#32 }] }

/-- Also the witness of StepKeepsDefaultStatuses. -/
theorem witness_StepKeepsResponsesFunctional :
    (∀ x ∈ midRun.history, x.rsp = wordStep midRun.cfg x.cmd) ∧ answered (step midRun) = true ∧
    midRun.cfg = defaultConfig ∧ (∀ x ∈ midRun.history,
      (x.rsp.toNat / 2 ^ 24 = 0 ∨ x.rsp = 0x01000000#32 ∨ x.rsp = 0x04000000#32)) := by decide +kernel

theorem witness_FailureLeavesNothingBehind :
    (withCommands [0x03800000#32, 0x0323B001#32]).pending = 0x03800000#32 :: [0x0323B001#32] ∧
    wordStep defaultConfig 0x03800000#32 ≥ 0x01000000#32 ∧
    answered (step (withCommands [0x03800000#32, 0x0323B001#32])) = true := by decide +kernel

theorem witness_InterleavedInstancesDoNotInterfere :
    [withCommands [0#32], midRun][1]? = some midRun := by decide +kernel

theorem witness_AdaptiveHostAlwaysGetsTheStepFunction : State.reset.pending = [] := rfl

end Sys2Proof.Tests
end

/-! ### The decoder against the encoder (30_encoding.md rules R61 to R64) -/

namespace Sys2Proof

theorem toNat_extractLsb'_eq_div_mod {w : Nat} (x : BitVec w) (start len : Nat) :
    (x.extractLsb' start len).toNat = x.toNat / 2 ^ start % 2 ^ len := by
  rw [BitVec.extractLsb'_toNat, Nat.shiftRight_eq_div_pow]

/-- Two neighbouring slices together are the slice over both. -/
theorem slice_append_slice (cmd : Word) (start lo hi : Nat) :
    cmd.extractLsb' (start + lo) hi ++ cmd.extractLsb' start lo = cmd.extractLsb' start (hi + lo) :=
  BitVec.extractLsb'_append_extractLsb'_eq_extractLsb' rfl

/-- A word is its `op` field before its `data` field (rule R61). -/
theorem opOf_append_data (cmd : Word) : (opOf cmd ++ cmd.extractLsb' 0 24 : BitVec (8 + 24)) = cmd :=
  (slice_append_slice cmd 0 24 8).trans BitVec.extractLsb'_eq_self

/-- No bit of a word that decodes is lost: the fields of the instruction give the word back. -/
theorem encode_of_decode {cmd : Word} {i : Instr} (h : decode cmd = .ok i) : encode i = cmd := by
  unfold decode at h
  split_ifs at h with henc hsyn hdec <;> cases h <;> refine Eq.trans ?_ (opOf_append_data cmd)
  · rw [henc]; exact congrArg (opEnc ++ ·) (slice_append_slice cmd 0 12 12)
  · rw [hsyn]; rfl
  · rw [hdec]; exact congrArg (opDec ++ ·) (slice_append_slice cmd 0 23 1)

/-- The decoder reads an instruction, well-formed or not, from its word. -/
@[simp] theorem decode_encode (i : Instr) : decode (encode i) = .ok i := by
  cases i with
  | enc z m =>
    have hop : opOf (encode (.enc z m)) = opEnc := Laws.OpByte.enc z m
    have hz : (encode (.enc z m)).extractLsb' 12 12 = z := BitVec.eq_of_toNat_eq (by
      rw [toNat_extractLsb'_eq_div_mod, toNat_encode_enc]; omega)
    have hm : (encode (.enc z m)).extractLsb' 0 12 = m := BitVec.eq_of_toNat_eq (by
      rw [toNat_extractLsb'_eq_div_mod, toNat_encode_enc]; omega)
    rw [decode, if_pos hop, hz, hm]
  | syn w =>
    have hop : opOf (encode (.syn w)) = opSyn := Laws.OpByte.syn w
    rw [decode, hop, if_neg (by decide), if_pos rfl, encode, BitVec.extractLsb'_append_eq_right]
  | dec z r =>
    have hop : opOf (encode (.dec z r)) = opDec := Laws.OpByte.dec z r
    have hz : (encode (.dec z r)).extractLsb' 23 1 = z := BitVec.eq_of_toNat_eq (by
      rw [toNat_extractLsb'_eq_div_mod, toNat_encode_dec]; omega)
    have hr : (encode (.dec z r)).extractLsb' 0 23 = r := BitVec.eq_of_toNat_eq (by
      rw [toNat_extractLsb'_eq_div_mod, toNat_encode_dec]; omega)
    rw [decode, hop, if_neg (by decide), if_neg (by decide), if_pos rfl, hz, hr]

/-- Every 32-bit word is the word of one of the three rows, or its `op` is reserved and the decoder says so. -/
theorem word_cases (cmd : Word) :
    (∃ z m, cmd = encode (.enc z m)) ∨ (∃ w, cmd = encode (.syn w)) ∨ (∃ z r, cmd = encode (.dec z r)) ∨
      (decode cmd = .error (.reservedOp (opOf cmd)) ∧ (cmd.toNat / 2 ^ 24 = 0 ∨ 4 ≤ cmd.toNat / 2 ^ 24)) := by
  cases hd : decode cmd with
  | ok i =>
    have hcmd := (encode_of_decode hd).symm
    cases i with
    | enc z m => exact .inl ⟨z, m, hcmd⟩
    | syn w => exact .inr (.inl ⟨w, hcmd⟩)
    | dec z r => exact .inr (.inr (.inl ⟨z, r, hcmd⟩))
  | error e =>
    unfold decode at hd
    split_ifs at hd with henc hsyn hdec
    cases hd
    rw [← BitVec.toNat_inj, toNat_opOf] at henc hsyn hdec
    simp only [opEnc, opSyn, opDec, BitVec.toNat_ofNat] at henc hsyn hdec
    exact .inr (.inr (.inr ⟨rfl, by omega⟩))

theorem op_encode_enc (z : BitVec 12) (m : Vec12) : (encode (.enc z m)).toNat / 2 ^ 24 = 1 := by
  rw [toNat_encode_enc]; omega

theorem op_encode_syn (w : Vec24) : (encode (.syn w)).toNat / 2 ^ 24 = 2 := by
  rw [toNat_encode_syn]; omega

theorem op_encode_dec (z : BitVec 1) (r : Vec23) : (encode (.dec z r)).toNat / 2 ^ 24 = 3 := by
  rw [toNat_encode_dec]; omega

theorem data_encode_enc (z : BitVec 12) (m : Vec12) :
    (encode (.enc z m)).toNat % 2 ^ 24 = 2 ^ 12 * z.toNat + m.toNat := by
  rw [toNat_encode_enc]; omega

theorem data_encode_syn (w : Vec24) : (encode (.syn w)).toNat % 2 ^ 24 = w.toNat := by
  rw [toNat_encode_syn]; omega

theorem data_encode_dec (z : BitVec 1) (r : Vec23) :
    (encode (.dec z r)).toNat % 2 ^ 24 = 2 ^ 23 * z.toNat + r.toNat := by
  rw [toNat_encode_dec]; omega

/-- The must-be-zero test on packed values sees the field `z` (rule R65). -/
theorem mustBeZero_encode_enc (z : BitVec 12) (m : Vec12) :
    (encode (.enc z m)).toNat % 2 ^ 24 / 2 ^ 12 = z.toNat := by
  rw [data_encode_enc]; omega

theorem mustBeZero_encode_dec (z : BitVec 1) (r : Vec23) :
    (encode (.dec z r)).toNat % 2 ^ 24 / 2 ^ 23 = z.toNat := by
  rw [data_encode_dec]; omega

theorem decode_of_reserved {cmd : Word} (h : cmd.toNat / 2 ^ 24 = 0 ∨ 4 ≤ cmd.toNat / 2 ^ 24) :
    decode cmd = .error (.reservedOp (opOf cmd)) := by
  rcases word_cases cmd with ⟨z, m, rfl⟩ | ⟨w, rfl⟩ | ⟨z, r, rfl⟩ | ⟨hd, -⟩
  · rw [op_encode_enc] at h; omega
  · rw [op_encode_syn] at h; omega
  · rw [op_encode_dec] at h; omega
  · exact hd

theorem Instr.wellFormed_enc (z : BitVec 12) (m : Vec12) : (Instr.enc z m).wellFormed = true ↔ z = 0#12 := by
  simp [Instr.wellFormed]

theorem Instr.illFormed_enc (z : BitVec 12) (m : Vec12) : (Instr.enc z m).wellFormed = false ↔ z.toNat ≠ 0 := by
  rw [← Bool.not_eq_true, Instr.wellFormed_enc, ← BitVec.toNat_inj, BitVec.toNat_zero]

theorem Instr.wellFormed_syn (w : Vec24) : (Instr.syn w).wellFormed = true := rfl

theorem Instr.wellFormed_dec (z : BitVec 1) (r : Vec23) : (Instr.dec z r).wellFormed = true ↔ z = 0#1 := by
  simp [Instr.wellFormed]

theorem Instr.illFormed_dec (z : BitVec 1) (r : Vec23) : (Instr.dec z r).wellFormed = false ↔ z.toNat ≠ 0 := by
  rw [← Bool.not_eq_true, Instr.wellFormed_dec, ← BitVec.toNat_inj, BitVec.toNat_zero]

end Sys2Proof

/-! ### The response of a step (30_encoding.md rules R64, R65, R67 and R68) -/

namespace Sys2Proof.Machine

/-- A step takes the command and records it with the block's response to it; it does nothing else. -/
theorem step_eq_record {s : State} {cmd : Word} {rest : List Word} (h : s.pending = cmd :: rest) :
    step s = .next (State.record { s with pending := rest } cmd (respond s.cfg cmd)) := by
  rw [step_of_cons s h, respond]
  cases hd : decode cmd with
  | ok i => rw [← encode_of_decode hd]; exact exec_eq_record i _
  | error e => rfl

theorem respond_of_decode {cfg : Config} {cmd : Word} {i : Instr} (h : decode cmd = .ok i) :
    respond cfg cmd = rspWord (outcomeOf cfg i) := by
  rw [respond, h]

@[simp] theorem respond_encode (cfg : Config) (i : Instr) :
    respond cfg (encode i) = rspWord (outcomeOf cfg i) := respond_of_decode (decode_encode i)

theorem respond_of_reserved {cfg : Config} {cmd : Word} (h : cmd.toNat / 2 ^ 24 = 0 ∨ 4 ≤ cmd.toNat / 2 ^ 24) :
    respond cfg cmd = failWord .illegalOp := by
  rw [respond, decode_of_reserved h]; rfl

/-- The length check comes before the operation, for each row that has a must-be-zero field. -/
theorem outcomeOf_of_illFormed {cfg : Config} {i : Instr} (h : i.wellFormed = false) :
    outcomeOf cfg i = .fail .invalidLength := by
  cases i with
  | enc z m => exact if_neg (by simpa [Instr.wellFormed] using h)
  | syn w => exact absurd (Instr.wellFormed_syn w) (by simp [h])
  | dec z r => exact if_neg (by simpa [Instr.wellFormed] using h)

theorem respond_of_illFormed {cfg : Config} {i : Instr} (h : i.wellFormed = false) :
    respond cfg (encode i) = 0x01000000#32 := by
  rw [respond_encode, outcomeOf_of_illFormed h]; rfl

/-- The words that rule R65 names are those of the ill-formed instructions. -/
theorem exists_illFormed_of_mustBeZero {cmd : Word}
    (h : (cmd.toNat / 2 ^ 24 = 1 ∧ cmd.toNat % 2 ^ 24 / 2 ^ 12 ≠ 0) ∨
      (cmd.toNat / 2 ^ 24 = 3 ∧ cmd.toNat % 2 ^ 24 / 2 ^ 23 ≠ 0)) :
    ∃ i : Instr, i.wellFormed = false ∧ cmd = encode i := by
  rcases word_cases cmd with ⟨z, m, rfl⟩ | ⟨w, rfl⟩ | ⟨z, r, rfl⟩ | ⟨-, hop⟩
  · rw [op_encode_enc, mustBeZero_encode_enc] at h
    exact ⟨.enc z m, (Instr.illFormed_enc z m).2 (by omega), rfl⟩
  · rw [op_encode_syn] at h; omega
  · rw [op_encode_dec, mustBeZero_encode_dec] at h
    exact ⟨.dec z r, (Instr.illFormed_dec z r).2 (by omega), rfl⟩
  · omega

@[simp] theorem outcomeOf_enc_zero (cfg : Config) (m : Vec12) :
    outcomeOf cfg (.enc 0#12 m) = .ok (resultField (Golay.encode cfg m)) := rfl

@[simp] theorem outcomeOf_syn (cfg : Config) (w : Vec24) :
    outcomeOf cfg (.syn w) = .ok (resultField (Golay.syndrome cfg w)) := rfl

@[simp] theorem outcomeOf_dec_zero (cfg : Config) (r : Vec23) :
    outcomeOf cfg (.dec 0#1 r) = messageOutcome (Golay.decode cfg r) := rfl

/-- `decode` fails in one way only (43_decoder.md rule R127). -/
theorem Golay.decode_cases (cfg : Config) (r : Vec23) :
    (∃ msg, Golay.decode cfg r = .ok msg) ∨ Golay.decode cfg r = .fail .decodingFailure := by
  unfold Golay.decode
  split
  · exact .inr rfl
  · exact .inl ⟨_, rfl⟩

/-- What the outcome of an instruction can be: a value, the length check's failure on an ill-formed instruction, or a
failed location, which only `DEC` reports. -/
theorem outcomeOf_cases (cfg : Config) (i : Instr) :
    (∃ v, outcomeOf cfg i = .ok v) ∨
    (outcomeOf cfg i = .fail .invalidLength ∧ i.wellFormed = false) ∨
    (outcomeOf cfg i = .fail .decodingFailure ∧ ∃ r, i = .dec 0#1 r) := by
  cases hw : i.wellFormed with
  | false => exact .inr (.inl ⟨outcomeOf_of_illFormed hw, rfl⟩)
  | true =>
    cases i with
    | enc z m =>
      obtain rfl := (Instr.wellFormed_enc z m).1 hw
      exact .inl ⟨_, outcomeOf_enc_zero cfg m⟩
    | syn w => exact .inl ⟨_, outcomeOf_syn cfg w⟩
    | dec z r =>
      obtain rfl := (Instr.wellFormed_dec z r).1 hw
      rw [outcomeOf_dec_zero]
      obtain ⟨msg, h⟩ | h := Golay.decode_cases cfg r <;> rw [h]
      · exact .inl ⟨_, rfl⟩
      · exact .inr (.inr ⟨rfl, r, rfl⟩)

theorem status_okWord (v : Vec24) : (okWord v).toNat / 2 ^ 24 = 0 := by
  rw [toNat_okWord]; omega

theorem status_failWord (k : FailKind) : (failWord k).toNat / 2 ^ 24 = k.status.toNat := by
  rw [toNat_failWord]; omega

/-- A failure carries no result (rule R67). -/
theorem result_failWord (k : FailKind) : (failWord k).toNat % 2 ^ 24 = 0 := by
  rw [toNat_failWord]; omega

theorem exists_respond_eq_rspWord (cfg : Config) (cmd : Word) : ∃ o, respond cfg cmd = rspWord o := by
  unfold respond
  split
  · exact ⟨_, rfl⟩
  · exact ⟨_, rfl⟩

theorem result_respond_of_status_ne_zero {cfg : Config} {cmd : Word}
    (h : (respond cfg cmd).toNat / 2 ^ 24 ≠ 0) : (respond cfg cmd).toNat % 2 ^ 24 = 0 := by
  obtain ⟨o, ho⟩ := exists_respond_eq_rspWord cfg cmd
  rw [ho] at h ⊢
  cases o with
  | ok v => exact absurd (status_okWord v) h
  | fail k => exact result_failWord k

/-- The response to `SYN` has status `0x00`, whatever the operand (42_syndrome.md rule R111). -/
theorem status_respond_syn (cfg : Config) (w : Vec24) : (respond cfg (encode (.syn w))).toNat / 2 ^ 24 = 0 := by
  rw [respond_encode, outcomeOf_syn, rspWord, status_okWord]

/-- The table of rule R68: the status of a response, with the operation codes it appears on. -/
theorem status_respond_cases (cfg : Config) (cmd : Word) :
    ((respond cfg cmd).toNat / 2 ^ 24 = 0 ∧
      (cmd.toNat / 2 ^ 24 = 1 ∨ cmd.toNat / 2 ^ 24 = 2 ∨ cmd.toNat / 2 ^ 24 = 3)) ∨
    ((respond cfg cmd).toNat / 2 ^ 24 = 1 ∧ (cmd.toNat / 2 ^ 24 = 1 ∨ cmd.toNat / 2 ^ 24 = 3)) ∨
    ((respond cfg cmd).toNat / 2 ^ 24 = 3 ∧ cmd.toNat / 2 ^ 24 = 3) ∨
    ((respond cfg cmd).toNat / 2 ^ 24 = 4 ∧ (cmd.toNat / 2 ^ 24 = 0 ∨ 4 ≤ cmd.toNat / 2 ^ 24)) := by
  rcases word_cases cmd with ⟨z, m, rfl⟩ | ⟨w, rfl⟩ | ⟨z, r, rfl⟩ | ⟨-, h⟩
  · rw [op_encode_enc, respond_encode]
    obtain ⟨v, h⟩ | ⟨h, -⟩ | ⟨-, r, hr⟩ := outcomeOf_cases cfg (.enc z m)
    · rw [h, rspWord, status_okWord]; omega
    · rw [h, rspWord, status_failWord]; decide
    · cases hr
  · rw [op_encode_syn, status_respond_syn]; omega
  · rw [op_encode_dec, respond_encode]
    obtain ⟨v, h⟩ | ⟨h, -⟩ | ⟨h, -⟩ := outcomeOf_cases cfg (.dec z r)
    · rw [h, rspWord, status_okWord]; omega
    · rw [h, rspWord, status_failWord]; decide
    · rw [h, rspWord, status_failWord]; decide
  · rw [respond_of_reserved h, status_failWord]
    exact .inr (.inr (.inr ⟨rfl, h⟩))

/-- The response that carries a value: status `0x00`, the bits of the value, and zeros above them (rule R69). -/
theorem okWord_resultField_bits {n : Nat} (v : BitVec n) (hn : n ≤ 24) :
    (okWord (resultField v)).toNat / 2 ^ 24 = 0 ∧
    (∀ i : Fin n, (okWord (resultField v)).getLsbD i = v.getLsb i) ∧
    ∀ i, n ≤ i → i ≤ 23 → (okWord (resultField v)).getLsbD i = false := by
  refine ⟨status_okWord _, fun i => ?_, fun i hlo hhi => ?_⟩ <;> rw [getLsbD_okWord, getLsbD_resultField]
  · rw [decide_eq_true (by omega), Bool.true_and]; rfl
  · rw [BitVec.getLsbD_of_ge _ _ hlo, Bool.and_false]

/-! ### The statements about operands, failures and results -/

/-- Settles O4: the word that decodes is the word of its instruction, whose bits are those of the fields. -/
theorem operandsAreSlicesOfData : Obligations.OperandsAreSlicesOfData := by
  intro cmd
  refine ⟨fun z m h => ?_, fun w h => ?_, fun z r h => ?_⟩ <;> obtain rfl := encode_of_decode h <;> clear h
  · refine ⟨fun i => by rw [getLsbD_encode_enc, if_pos i.isLt]; rfl, ?_⟩
    rw [Instr.wellFormed_enc]
    constructor
    · rintro rfl i hlo hhi
      rw [getLsbD_encode_enc, if_neg (by omega), if_pos (by omega), BitVec.getLsbD_zero]
    · intro hz
      refine BitVec.eq_of_getLsbD_eq fun i hi => ?_
      have hbit := hz (i + 12) (by omega) (by omega)
      rw [getLsbD_encode_enc, if_neg (by omega), if_pos (by omega), Nat.add_sub_cancel] at hbit
      rw [hbit, BitVec.getLsbD_zero]
  · exact ⟨fun i => by rw [getLsbD_encode_syn, if_pos i.isLt]; rfl, Instr.wellFormed_syn w⟩
  · refine ⟨fun i => by rw [getLsbD_encode_dec, if_pos i.isLt]; rfl, ?_⟩
    rw [Instr.wellFormed_dec, getLsbD_encode_dec, if_neg (by omega), if_pos (by omega)]
    revert z; decide

/-- Settles O10: a reserved `op` is answered with the word of `IllegalOp`. -/
theorem reservedOpEndsWithIllegalOp : Obligations.ReservedOpEndsWithIllegalOp := by
  refine ⟨fun s cmd rest hp hop => ?_, rfl⟩
  rw [step_eq_record hp, respond_of_reserved hop]
  rfl

/-- Settles O11: such a word is that of an ill-formed instruction, which the length check stops; `SYN` has none. -/
theorem mustBeZeroBitsEndWithInvalidLength : Obligations.MustBeZeroBitsEndWithInvalidLength := by
  intro s cmd rest hp
  refine ⟨fun h => ?_, fun h => ⟨_, _, step_eq_record hp, rfl, rfl, ?_⟩⟩
  · obtain ⟨i, hw, rfl⟩ := exists_illFormed_of_mustBeZero h
    refine ⟨⟨i, decode_encode i, hw⟩, ?_⟩
    rw [step_eq_record hp, respond_of_illFormed hw]
    rfl
  · have := status_respond_cases s.cfg cmd
    dsimp only
    omega

/-- Settles O13: the four rows of `status_respond_cases` are the table. -/
theorem statusCodesAreAsTabulated : Obligations.StatusCodesAreAsTabulated := by
  intro s cmd rest hp
  refine ⟨_, _, step_eq_record hp, rfl, ?_⟩
  have := status_respond_cases s.cfg cmd
  refine ⟨?_, ?_, ?_, ?_, ?_, ?_, rfl, rfl, rfl, rfl⟩ <;> omega

/-- Settles O14: the response of a command that completes is its value, zero-extended. -/
theorem resultsAreZeroExtended : Obligations.ResultsAreZeroExtended := by
  intro s cmd rest hp
  refine ⟨_, _, step_eq_record hp, rfl, result_respond_of_status_ne_zero,
    fun m h => ?_, fun w h => ?_, fun r msg h hmsg => ?_⟩
  · rw [respond_of_decode h, outcomeOf_enc_zero, rspWord]
    obtain ⟨hstatus, hbits, hzeros⟩ := okWord_resultField_bits (Golay.encode s.cfg m) (by omega)
    exact ⟨hstatus, hbits, hzeros 23 (by omega) (by omega)⟩
  · rw [respond_of_decode h, outcomeOf_syn, rspWord]
    exact okWord_resultField_bits _ (by omega)
  · rw [respond_of_decode h, outcomeOf_dec_zero, hmsg, messageOutcome, rspWord]
    exact okWord_resultField_bits _ (by omega)

end Sys2Proof.Machine

/-! ### The block on packed values (40_gf2_primitives.md rules R85, R88 and R90, 43_decoder.md rule R130) -/

namespace Sys2Proof.Machine

open Sys2Proof.Reference

/-- The packed product is the sum of the selected rows. -/
theorem packedProduct_eq_selectedRows (rows : Nat → Nat) (r v : Nat) :
    packedProduct rows r v = selectedRows rows v.testBit r := by
  induction r with
  | zero => rfl
  | succ r ih =>
    rw [packedProduct] at ih ⊢
    rw [List.range_succ, List.foldl_append, ih, selectedRows]
    by_cases h : v.testBit r <;> simp [h]

theorem testBit_toNat_row {r c : Nat} (M : BitMat r c) (j : Fin r) (i : Nat) :
    (Gf2.row M j).toNat.testBit i = if h : i < c then M j ⟨i, h⟩ else false :=
  Gf2.getLsbD_ofBits (M j) i

/-- A product on packed values is the packed product with the packed rows (rule R88). -/
theorem toNat_vecmat {r c : Nat} (v : BitVec r) (M : BitMat r c) (rows : Nat → Nat)
    (hrows : ∀ j : Fin r, (Gf2.row M j).toNat = rows j) :
    (Gf2.vecmat v M).toNat = packedProduct rows r v.toNat := by
  refine Nat.eq_of_testBit_eq fun i => ?_
  rw [packedProduct_eq_selectedRows, testBit_selectedRows]
  refine (Gf2.getLsbD_ofBits _ i).trans ?_
  simp only [← hrows, testBit_toNat_row]
  split
  · rfl
  · simp

/-- `[a | b]` on packed values (rule R90). -/
theorem toNat_cat {n m : Nat} (a : BitVec n) (b : BitVec m) : (Gf2.cat a b).toNat = 2 ^ n * b.toNat + a.toNat := by
  rw [Gf2.cat, BitVec.toNat_append, ← Nat.shiftLeft_add_eq_or_of_lt a.isLt, Nat.shiftLeft_eq, Nat.mul_comm]

theorem toNat_unit (k : Fin 12) : (Gf2.unit k).toNat = 2 ^ k.val := by
  revert k; decide

/-- The weight is the population count of the packed value (rule R85). -/
theorem countTrue_testBit_eq_popCount (n x : Nat) : Gf2.countTrue n (fun i => x.testBit i.val) = popCount n x := by
  induction n with
  | zero => rfl
  | succ n ih =>
    rw [popCount] at ih ⊢
    rw [Gf2.countTrue, List.range_succ, List.filter_append, List.length_append, ← ih]
    by_cases h : x.testBit n <;> simp [h]

theorem wt_eq_popCount {n : Nat} (v : BitVec n) : Gf2.wt v = popCount n v.toNat :=
  countTrue_testBit_eq_popCount n v.toNat

/-! The constant matrices (10_state.md rules R27 to R29). -/

theorem rowB_eq_get (cfg : Config) (k : Fin 12) : rowB cfg k = cfg.bRows.get k :=
  Gf2.ext fun i => get_rowB cfg k i

theorem toNat_rowB (cfg : Config) (k : Fin 12) : (rowB cfg k).toNat = packedB cfg k := by
  rw [rowB_eq_get, packedB]
  simp [List.getD, Vector.get]

theorem toNat_row_matG (cfg : Config) (j : Fin 12) : (Gf2.row (matG cfg) j).toNat = packedG cfg j := by
  refine Nat.eq_of_testBit_eq fun i => ?_
  have hlt : 2 ^ j.val < 2 ^ 12 := Nat.pow_lt_pow_right (by omega) j.isLt
  rw [testBit_toNat_row, packedG, Nat.add_comm, Nat.testBit_two_pow_mul_add _ hlt, Nat.testBit_mod_two_pow,
    Nat.testBit_two_pow, ← toNat_rowB]
  by_cases hlow : i < 12
  · simp [hlow, show i < 23 by omega, matG, identity12, Fin.ext_iff, eq_comm]
  · by_cases hhigh : i < 23
    · rw [dif_pos hhigh, if_neg hlow, matG_high _ _ _ hlow, ← get_rowB, decide_eq_true (by omega), Bool.true_and]
      rfl
    · rw [dif_neg hhigh, if_neg hlow, decide_eq_false (by omega), Bool.false_and]

theorem toNat_row_matH (cfg : Config) (j : Fin 24) : (Gf2.row (matH cfg) j).toNat = packedH cfg j := by
  rw [packedH]
  split
  case isTrue h =>
    rw [← toNat_unit ⟨j.val, h⟩]
    refine congrArg BitVec.toNat (Gf2.ext fun i => ?_)
    rw [Gf2.get_row, matH_low _ _ _ h, Gf2.get_unit, identity12]
  case isFalse h =>
    rw [← toNat_rowB cfg ⟨j.val - 12, by omega⟩]
    refine congrArg BitVec.toNat (Gf2.ext fun i => ?_)
    rw [Gf2.get_row, matH_high _ _ _ h, get_rowB]

/-! The three units. -/

theorem toNat_golayEncode (cfg : Config) (m : Vec12) :
    (Golay.encode cfg m).toNat = packedProduct (packedG cfg) 12 m.toNat :=
  toNat_vecmat m _ _ (toNat_row_matG cfg)

theorem toNat_syndrome (cfg : Config) (w : Vec24) :
    (Golay.syndrome cfg w).toNat = packedProduct (packedH cfg) 24 w.toNat :=
  toNat_vecmat w _ _ (toNat_row_matH cfg)

theorem toNat_syn2 (cfg : Config) (s : Vec12) :
    (Golay.syn2 cfg s).toNat = packedProduct (packedB cfg) 12 s.toNat :=
  toNat_vecmat s _ _ (toNat_rowB cfg)

theorem toNat_xorWith_rowB (cfg : Config) (x : Vec12) (k : Fin 12) :
    (Gf2.xorWith x (rowB cfg k)).toNat = x.toNat ^^^ packedB cfg k := by
  rw [Gf2.xorWith, BitVec.toNat_xor, toNat_rowB]

theorem packedScan_eq_scanRows (cfg : Config) (x : Vec12) :
    packedScan cfg x.toNat = (scanRows cfg x).map Fin.val := by
  rw [packedScan, ← List.map_coe_finRange_eq_range, List.find?_map, scanRows, firstRow, scanOrder_eq_finRange]
  congr 2
  funext k
  simp only [Function.comp_apply, fitsRow, wt_eq_popCount, toNat_xorWith_rowB]

theorem toNat_patternA (s : Vec12) : (patternA s).toNat = s.toNat := by
  simp [patternA, toNat_cat, Gf2.zeros]

theorem toNat_patternB (cfg : Config) (s : Vec12) (k : Fin 12) :
    (patternB cfg s k).toNat = 2 ^ (12 + k.val) + (s.toNat ^^^ packedB cfg k) := by
  rw [patternB, toNat_cat, toNat_unit, toNat_xorWith_rowB, Nat.pow_add]

theorem toNat_patternC1 (s2 : Vec12) : (patternC1 s2).toNat = 2 ^ 12 * s2.toNat := by
  simp [patternC1, toNat_cat, Gf2.zeros]

theorem toNat_patternC2 (cfg : Config) (s2 : Vec12) (k : Fin 12) :
    (patternC2 cfg s2 k).toNat = 2 ^ k.val + 2 ^ 12 * (s2.toNat ^^^ packedB cfg k) := by
  rw [patternC2, toNat_cat, toNat_unit, toNat_xorWith_rowB, Nat.add_comm]

/-- The locator tries the same cases in the same order on packed values (43_decoder.md rule R130). -/
theorem packedLocate_eq_locate (cfg : Config) (s : Vec12) :
    packedLocate cfg s.toNat = (Golay.locate cfg s).map fun l => l.u.toNat := by
  simp only [packedLocate, Golay.locate, locateSecond, fitsDirect, decide_eq_true_eq, packedScan_eq_scanRows,
    ← toNat_syn2, ← wt_eq_popCount]
  by_cases hA : Gf2.wt s ≤ 3
  · rw [if_pos hA, if_pos hA, Option.map_some, toNat_patternA]
  rw [if_neg hA, if_neg hA]
  cases scanRows cfg s with
  | some k => exact congrArg some (toNat_patternB cfg s k).symm
  | none =>
    by_cases hC1 : Gf2.wt (Golay.syn2 cfg s) ≤ 3
    · simp only [Option.map_none, if_pos hC1, Option.map_some, toNat_patternC1]
    · simp only [Option.map_none, if_neg hC1]
      cases scanRows cfg (Golay.syn2 cfg s) with
      | some k => exact congrArg some (toNat_patternC2 cfg _ k).symm
      | none => rfl

theorem toNat_extend (r : Vec23) : (Golay.extend r).toNat = packedExtend r.toNat := by
  rw [Golay.extend, toNat_cat, packedExtend, appendedBit, wt_eq_popCount]
  by_cases h : popCount 23 r.toNat % 2 = 0 <;> simp [h]

theorem toNat_correct (w u : Vec24) : (Golay.correct w u).toNat = (w.toNat ^^^ u.toNat) % 2 ^ 12 := by
  rw [Golay.correct, Gf2.low, toNat_extractLsb'_eq_div_mod, Gf2.xorWith, BitVec.toNat_xor, Nat.pow_zero, Nat.div_one]

theorem packedDecode_eq_map_locate (cfg : Config) (r : Vec23) :
    packedDecode cfg r.toNat = (Golay.locate cfg (Golay.syndrome cfg (Golay.extend r))).map fun l =>
      (Golay.correct (Golay.extend r) l.u).toNat := by
  rw [packedDecode, ← toNat_extend, ← toNat_syndrome, packedLocate_eq_locate, Option.map_map]
  simp only [Function.comp_def, toNat_correct]

/-! The response. -/

theorem packedRsp_zero (result : Nat) : packedRsp 0 result = result := by simp [packedRsp]

theorem toNat_okWord_resultField {n : Nat} (v : BitVec n) (h : n ≤ 24) :
    (okWord (resultField v)).toNat = packedRsp 0x00 v.toNat := by
  rw [toNat_okWord, resultField, BitVec.toNat_setWidth_of_le h, packedRsp_zero]

theorem toNat_rspWord_messageOutcome_decode (cfg : Config) (r : Vec23) :
    (rspWord (messageOutcome (Golay.decode cfg r))).toNat = packedDecResponse (packedDecode cfg r.toNat) := by
  rw [packedDecode_eq_map_locate, Golay.decode]
  cases Golay.locate cfg (Golay.syndrome cfg (Golay.extend r)) with
  | none => rfl
  | some l => exact toNat_okWord_resultField _ (by omega)

/-- The block's response to a word is the function that rule R72 writes out on packed values. -/
theorem toNat_respond (cfg : Config) (cmd : Word) : (respond cfg cmd).toNat = packedStep cfg cmd.toNat := by
  rw [packedStep, packedOp, packedData]
  rcases word_cases cmd with ⟨z, m, rfl⟩ | ⟨w, rfl⟩ | ⟨z, r, rfl⟩ | ⟨-, hop⟩
  · rw [op_encode_enc, if_pos rfl, mustBeZero_encode_enc]
    by_cases hz : z.toNat = 0
    · obtain rfl : z = 0#12 := BitVec.eq_of_toNat_eq hz
      rw [if_neg (by decide), data_encode_enc, hz, Nat.mul_zero, Nat.zero_add, respond_encode, outcomeOf_enc_zero,
        rspWord, toNat_okWord_resultField _ (by omega), toNat_golayEncode]
    · rw [if_pos hz, respond_of_illFormed ((Instr.illFormed_enc z m).2 hz)]
      rfl
  · rw [op_encode_syn, data_encode_syn, if_neg (by decide), if_pos rfl, respond_encode, outcomeOf_syn, rspWord,
      toNat_okWord_resultField _ (by omega), toNat_syndrome]
  · rw [op_encode_dec, if_neg (by decide), if_neg (by decide), if_pos rfl, mustBeZero_encode_dec]
    by_cases hz : z.toNat = 0
    · obtain rfl : z = 0#1 := BitVec.eq_of_toNat_eq hz
      rw [if_neg (by decide), data_encode_dec, hz, Nat.mul_zero, Nat.zero_add, respond_encode, outcomeOf_dec_zero,
        toNat_rspWord_messageOutcome_decode]
    · rw [if_pos hz, respond_of_illFormed ((Instr.illFormed_dec z r).2 hz)]
      rfl
  · rw [respond_of_reserved hop, if_neg (by omega), if_neg (by omega), if_neg (by omega)]
    rfl

theorem respond_eq_wordStep (cfg : Config) (cmd : Word) : respond cfg cmd = wordStep cfg cmd := by
  rw [wordStep, ← toNat_respond, BitVec.ofNat_toNat, BitVec.setWidth_eq]

/-- Settles O9: the step records the block's response, which is rule R72's function on packed values. -/
theorem stepIsThePackedReference : Obligations.StepIsThePackedReference := by
  intro s cmd rest hp
  rw [step_eq_record hp, respond_eq_wordStep]
  rfl

end Sys2Proof.Machine

/-! ### The GF(2) primitives (40_gf2_primitives.md rules R80 and R82 to R89) -/

namespace Sys2Proof.Machine

open Sys2Proof.Reference

/-! Counting bits and adding them over GF(2) (rules R80 and R85). -/

/-- The counter counts the set of true indices, the form the reference counts in. -/
theorem Gf2.countTrue_eq_card (n : Nat) (f : Fin n → Bool) :
    Gf2.countTrue n f = (Finset.univ.filter fun j => f j = true).card := by
  induction n with
  | zero => rfl
  | succ n ih =>
    rw [Gf2.countTrue, ih, Finset.card_filter, Finset.card_filter, Fin.sum_univ_castSucc]
    cases f (Fin.last n) <;> rfl

/-- The boolean accumulator is the parity of the counter, which is the reference's sum (rule R80). -/
theorem Gf2.xorSum_eq_oddMany (n : Nat) (f : Fin n → Bool) : Gf2.xorSum n f = oddMany f := by
  rw [oddMany, ← Gf2.countTrue_eq_card]
  induction n with
  | zero => rfl
  | succ n ih =>
    rw [Gf2.xorSum, ih, Gf2.countTrue]
    cases f (Fin.last n) with
    | false => rw [Bool.xor_false, Bool.toNat_false, Nat.add_zero]
    | true =>
      rw [Bool.xor_true, ← decide_not, Bool.toNat_true]
      exact decide_eq_decide.2 (by omega)

/-- Settles O24: the accumulator is `oddMany`; the laws on one bit are the four truth tables. -/
theorem bitSumIsOddParity : Obligations.BitSumIsOddParity :=
  ⟨Gf2.xorSum_eq_oddMany, by decide⟩

/-- A true index of `f XOR g` is one of `f` or of `g` but not of both, so the common ones are counted twice in the
sum of the two counts. -/
theorem Gf2.countTrue_xor_add_two_mul_and (n : Nat) (f g : Fin n → Bool) :
    Gf2.countTrue n (fun i => f i ^^ g i) + 2 * Gf2.countTrue n (fun i => f i && g i) =
      Gf2.countTrue n f + Gf2.countTrue n g := by
  induction n with
  | zero => rfl
  | succ n ih =>
    have hrest := ih (fun i => f i.castSucc) (fun i => g i.castSucc)
    have hlast : (f (Fin.last n) ^^ g (Fin.last n)).toNat + 2 * (f (Fin.last n) && g (Fin.last n)).toNat =
        (f (Fin.last n)).toNat + (g (Fin.last n)).toNat := by
      cases f (Fin.last n) <;> cases g (Fin.last n) <;> rfl
    simp only [Gf2.countTrue]
    omega

theorem Gf2.wt_eq_card {n : Nat} (v : BitVec n) :
    Gf2.wt v = (Finset.univ.filter fun i : Fin n => v.getLsb i = true).card :=
  Gf2.countTrue_eq_card n _

@[simp] theorem Gf2.wt_zeros (n : Nat) : Gf2.wt (Gf2.zeros n) = 0 := by
  rw [Gf2.wt_eq_card, Finset.card_eq_zero, Finset.filter_eq_empty_iff]
  exact fun i _ => Bool.eq_false_iff.1 (Gf2.get_zeros i)

@[simp] theorem Gf2.wt_allOnes (n : Nat) : Gf2.wt (BitVec.allOnes n) = n := by
  rw [Gf2.wt_eq_card, Finset.filter_true_of_mem, Finset.card_univ, Fintype.card_fin]
  intro i _
  simp

theorem Gf2.wt_xor_add_two_mul_wt_and {n : Nat} (a b : BitVec n) :
    Gf2.wt (a ^^^ b) + 2 * Gf2.wt (a &&& b) = Gf2.wt a + Gf2.wt b := by
  rw [Gf2.wt, Gf2.wt, Gf2.wt, Gf2.wt, ← Gf2.countTrue_xor_add_two_mul_and]
  simp only [Gf2.get_eq_getLsbD, BitVec.getLsbD_xor, BitVec.getLsbD_and]

/-- Settles O25: the weight is the counter at the bits of the vector; the parity follows from the law over XOR. -/
theorem weightCountsTrueBits : Obligations.WeightCountsTrueBits := by
  refine ⟨fun n v => ⟨Gf2.wt_eq_card v, wt_eq_popCount v⟩, fun n => ⟨Gf2.wt_zeros n, Gf2.wt_allOnes n⟩,
    fun n a b => ?_, by decide⟩
  have hlaw := Gf2.wt_xor_add_two_mul_wt_and a b
  exact ⟨hlaw, by omega⟩

/-! Reading, setting and adding bits, and the checked forms (rules R82 to R84 and R86). -/

@[simp] theorem Gf2.get_set {n : Nat} (v : BitVec n) (i j : Fin n) (b : Bool) :
    Gf2.get (Gf2.set v i b) j = if j = i then b else Gf2.get v j := Gf2.get_ofBits _ _

theorem Gf2.getChecked_of_lt {n : Nat} (v : BitVec n) {i : Nat} (h : i < n) :
    Gf2.getChecked v i = some (Gf2.get v ⟨i, h⟩) := dif_pos h

theorem Gf2.setChecked_of_lt {n : Nat} (v : BitVec n) {i : Nat} (b : Bool) (h : i < n) :
    Gf2.setChecked v i b = some (Gf2.set v ⟨i, h⟩ b) := dif_pos h

theorem Gf2.getChecked_eq_none_iff {n : Nat} (v : BitVec n) (i : Nat) : Gf2.getChecked v i = none ↔ n ≤ i := by
  rw [Gf2.getChecked, dite_eq_right_iff]
  simp

theorem Gf2.setChecked_eq_none_iff {n : Nat} (v : BitVec n) (i : Nat) (b : Bool) :
    Gf2.setChecked v i b = none ↔ n ≤ i := by
  rw [Gf2.setChecked, dite_eq_right_iff]
  simp

@[simp] theorem Gf2.xorChecked_same_length {n : Nat} (a b : BitVec n) :
    Gf2.xorChecked a b = some (Gf2.xorWith a b) := dif_pos rfl

theorem Gf2.xorChecked_of_length_ne {n m : Nat} (a : BitVec n) (b : BitVec m) (h : n ≠ m) :
    Gf2.xorChecked a b = none := dif_neg h.symm

/-- Settles O26, from the lemma about each operation; the examples of the rules are computed. -/
theorem bitOperationsActOnTheirIndex : Obligations.BitOperationsActOnTheirIndex := by
  refine ⟨fun n v i j b => ⟨rfl, Gf2.get_set v i j b⟩, fun n v i b => ?_, fun n a b => ?_,
    fun n m a b h => Gf2.xorChecked_of_length_ne a b h, by decide, by decide⟩
  · exact ⟨Gf2.getChecked_eq_none_iff v i, Gf2.setChecked_eq_none_iff v i b,
      fun h => ⟨Gf2.getChecked_of_lt v h, Gf2.setChecked_of_lt v b h⟩, rfl⟩
  · exact ⟨Gf2.get_xorWith a b, BitVec.toNat_xor a b, Gf2.xorChecked_same_length a b⟩

/-! The product of a vector and a matrix (rule R88). -/

theorem Gf2.xorSum_eq_foldl_finRange (n : Nat) (f : Fin n → Bool) :
    Gf2.xorSum n f = (List.finRange n).foldl (fun acc j => acc ^^ f j) false := by
  induction n with
  | zero => rfl
  | succ n ih =>
    rw [Gf2.xorSum, ih, List.finRange_succ_last, List.foldl_append, List.foldl_map]
    rfl

/-- A GF(2) sum may be accumulated in any order of its indices. -/
theorem Gf2.xorSum_eq_foldl_of_perm {n : Nat} (f : Fin n → Bool) {order : List (Fin n)}
    (h : order.Perm (List.finRange n)) : Gf2.xorSum n f = order.foldl (fun acc j => acc ^^ f j) false := by
  rw [Gf2.xorSum_eq_foldl_finRange]
  exact h.symm.foldl_eq' (fun i _ j _ acc => Bool.xor_right_comm acc (f i) (f j)) false

/-- Bit `i` of an accumulation of rows is the accumulation of the rows' bits `i`. -/
theorem Gf2.get_foldl_row {r c : Nat} (select : Fin r → Bool) (M : BitMat r c) (i : Fin c) (order : List (Fin r))
    (acc : BitVec c) :
    Gf2.get (order.foldl (fun acc j => if select j then acc ^^^ Gf2.row M j else acc) acc) i =
      order.foldl (fun bit j => bit ^^ (select j && M j i)) (Gf2.get acc i) := by
  induction order generalizing acc with
  | nil => rfl
  | cons j order ih =>
    rw [List.foldl_cons, List.foldl_cons, ih]
    congr 1
    cases select j with
    | false => exact (Bool.xor_false _).symm
    | true => exact (Gf2.get_xorWith acc (Gf2.row M j) i).trans (congrArg _ (Gf2.get_row M j i))

theorem Gf2.get_vecmat_eq_foldl {r c : Nat} (v : BitVec r) (M : BitMat r c) {order : List (Fin r)}
    (h : order.Perm (List.finRange r)) (i : Fin c) :
    Gf2.get (Gf2.vecmat v M) i = order.foldl (fun acc j => acc ^^ (v.getLsb j && M j i)) false :=
  (Gf2.get_vecmat v M i).trans (Gf2.xorSum_eq_foldl_of_perm _ h)

/-- The product is the sum of the selected rows, accumulated in any order. -/
theorem Gf2.vecmat_eq_foldl_row {r c : Nat} (v : BitVec r) (M : BitMat r c) {order : List (Fin r)}
    (h : order.Perm (List.finRange r)) :
    Gf2.vecmat v M = order.foldl (fun acc j => if v.getLsb j then acc ^^^ Gf2.row M j else acc) 0#c := by
  refine Gf2.ext fun i => ?_
  have hzero : Gf2.get 0#c i = false := Gf2.get_zeros i
  rw [Gf2.get_foldl_row, Gf2.get_vecmat_eq_foldl v M h, hzero]

@[simp] theorem Gf2.vecmat_zeros {r c : Nat} (M : BitMat r c) : Gf2.vecmat (Gf2.zeros r) M = Gf2.zeros c :=
  Gf2.ext fun i => by simp

/-- The product is linear in the vector: AND distributes over XOR at each index. -/
theorem Gf2.vecmat_xorWith {r c : Nat} (a b : BitVec r) (M : BitMat r c) :
    Gf2.vecmat (Gf2.xorWith a b) M = Gf2.xorWith (Gf2.vecmat a M) (Gf2.vecmat b M) := by
  refine Gf2.ext fun i => ?_
  simp only [Gf2.get_vecmat, Gf2.get_xorWith, Bool.and_xor_distrib_right, Gf2.xorSum_xor]

/-- Settles O27: each form of the product is one of the lemmas above, and its packed form is `toNat_vecmat`. -/
theorem productIsTheSumOfSelectedRows : Obligations.ProductIsTheSumOfSelectedRows := by
  intro r c M
  refine ⟨fun v i => ?_, fun v order h => ⟨Gf2.vecmat_eq_foldl_row v M h, Gf2.get_vecmat_eq_foldl v M h⟩,
    fun v => toNat_vecmat v M _ fun j => by rw [dif_pos j.isLt], Gf2.vecmat_zeros M,
    fun a b => Gf2.vecmat_xorWith a b M⟩
  rw [Gf2.get_vecmat, Gf2.xorSum_eq_oddMany]
  rfl

/-! The text form (rule R89). -/

theorem isBitChar_eq_false_iff (c : Char) : isBitChar c = false ↔ c ≠ '0' ∧ c ≠ '1' := by
  simp [isBitChar]

@[simp] theorem isBitChar_bitChar (b : Bool) : isBitChar (bitChar b) = true := by
  cases b <;> rfl

@[simp] theorem bitChar_beq_one (b : Bool) : (bitChar b == '1') = b := by
  cases b <;> rfl

/-- A character the text form allows is the character of its bit. -/
theorem bitChar_of_isBitChar {c : Char} (h : isBitChar c = true) : bitChar (c == '1') = c := by
  rw [isBitChar, Bool.or_eq_true, beq_iff_eq, beq_iff_eq] at h
  obtain rfl | rfl := h <;> rfl

@[simp] theorem length_toBitString {n : Nat} (v : BitVec n) : (toBitString v).length = n := by
  simp [toBitString]

theorem get_toBitString {n : Nat} (v : BitVec n) (i : Fin (toBitString v).length) :
    (toBitString v).get i = bitChar (Gf2.get v (i.cast (length_toBitString v))) := by
  rw [List.get_eq_getElem]
  simp [toBitString, Fin.cast]

theorem all_isBitChar_toBitString {n : Nat} (v : BitVec n) : (toBitString v).all isBitChar = true := by
  simp [toBitString]

theorem fromBitString_of_all {t : List Char} (h : t.all isBitChar = true) :
    fromBitString t = .ok (Gf2.ofBits t.length fun i => t.get i == '1') := if_pos h

theorem fromBitString_eq_fail_iff (t : List Char) :
    fromBitString t = .fail .invalidFormat ↔ t.all isBitChar = false := by
  cases h : t.all isBitChar <;> simp [fromBitString, h]

/-- Reading the text of a vector gives the vector. -/
theorem fromBitString_toBitString {n : Nat} (v : BitVec n) :
    fromBitString (toBitString v) = .ok (v.cast (length_toBitString v).symm) := by
  rw [fromBitString_of_all (all_isBitChar_toBitString v)]
  refine congrArg OpOutcome.ok (Gf2.ext fun i => ?_)
  rw [Gf2.get_ofBits, get_toBitString, bitChar_beq_one]
  rfl

/-- The vector of a text over `0` and `1` has that text. -/
theorem toBitString_ofBits_get {t : List Char} (h : t.all isBitChar = true) :
    toBitString (Gf2.ofBits t.length fun i => t.get i == '1') = t := by
  rw [List.all_eq_true] at h
  calc toBitString (Gf2.ofBits t.length fun i => t.get i == '1')
      = (List.finRange t.length).map t.get := List.map_congr_left fun i _ => by
        rw [Gf2.get_ofBits, bitChar_of_isBitChar (h _ (List.get_mem t i))]
    _ = t := List.map_get_finRange t

/-- A text that converts is the text of its vector. -/
theorem toBitString_of_fromBitString {t : List Char} {v : BitVec t.length} (h : fromBitString t = .ok v) :
    toBitString v = t := by
  cases hall : t.all isBitChar with
  | false =>
    rw [(fromBitString_eq_fail_iff t).2 hall] at h
    cases h
  | true =>
    rw [fromBitString_of_all hall] at h
    cases h
    exact toBitString_ofBits_get hall

/-- No command takes text, so the block never answers `InvalidFormat` (60_exceptions.md rule R153). -/
theorem outcomeOf_ne_invalidFormat (cfg : Config) (i : Instr) : outcomeOf cfg i ≠ .fail .invalidFormat := by
  obtain ⟨v, h⟩ | ⟨h, -⟩ | ⟨h, -⟩ := outcomeOf_cases cfg i <;> simp [h]

/-- Settles O29: the two conversions invert each other, and conversion fails on the other texts only. -/
theorem textFormRoundTrips : Obligations.TextFormRoundTrips := by
  refine ⟨fun n v => ⟨length_toBitString v, fromBitString_toBitString v⟩, fun t v => toBitString_of_fromBitString,
    fun t => ?_, by decide, outcomeOf_ne_invalidFormat⟩
  rw [fromBitString_eq_fail_iff, List.all_eq_false]
  simp only [← isBitChar_eq_false_iff, Bool.not_eq_true]

end Sys2Proof.Machine

/-! ### The encoder unit (41_encoder.md rule R101) -/

namespace Sys2Proof.Machine

open Sys2Proof.Reference

/-- Bit `i` of a product is the parity of the number of rows that are selected and hold a true bit in column `i`. -/
theorem Gf2.get_vecmat_eq_oddMany {r c : Nat} (v : BitVec r) (M : BitMat r c) (i : Fin c) :
    Gf2.get (Gf2.vecmat v M) i = oddMany fun j => Gf2.get v j && M j i := by
  rw [Gf2.get_vecmat, Gf2.xorSum_eq_oddMany]

/-- Settles O31: the codeword is the product of the message with G, so its bits are parities, and its packed value is
`toNat_golayEncode`. -/
theorem encodeIsTheProductWithG : Obligations.EncodeIsTheProductWithG :=
  fun cfg m => ⟨Gf2.get_vecmat_eq_oddMany m (matG cfg), toNat_golayEncode cfg m⟩

end Sys2Proof.Machine

/-! ### The syndrome calculator unit (42_syndrome.md rule R110) -/

namespace Sys2Proof.Machine

open Sys2Proof.Reference

/-- A GF(2) sum over `n + m` indices is the sum over the first `n` and the sum over the other `m`. -/
theorem Gf2.xorSum_add (n m : Nat) (f : Fin (n + m) → Bool) :
    Gf2.xorSum (n + m) f =
      (Gf2.xorSum n (fun j => f (Fin.castAdd m j)) ^^ Gf2.xorSum m fun j => f (Fin.natAdd n j)) := by
  induction m with
  | zero => exact (Bool.xor_false _).symm
  | succ m ih => exact (congrArg (· ^^ _) (ih fun j => f j.castSucc)).trans (Bool.xor_assoc _ _ _)

theorem Gf2.get_low (x : Vec24) (j : Fin 12) : Gf2.get (Gf2.low x) j = Gf2.get x (Fin.castAdd 12 j) := by
  rw [Gf2.get_eq_getLsbD, Gf2.getLsbD_low, decide_eq_true j.isLt, Bool.true_and]
  rfl

theorem Gf2.get_high (x : Vec24) (j : Fin 12) : Gf2.get (Gf2.high x) j = Gf2.get x (Fin.natAdd 12 j) := by
  rw [Gf2.get_eq_getLsbD, Gf2.getLsbD_high, decide_eq_true j.isLt, Bool.true_and]
  rfl

theorem matH_castAdd (cfg : Config) (j i : Fin 12) : matH cfg (Fin.castAdd 12 j) i = identity12 j i :=
  matH_low cfg (Fin.castAdd 12 j) i j.isLt

theorem matH_natAdd (cfg : Config) (j i : Fin 12) : matH cfg (Fin.natAdd 12 j) i = matB cfg j i := by
  rw [matH_high cfg (Fin.natAdd 12 j) i (Nat.not_lt.2 (Nat.le_add_right 12 j))]
  exact congrArg (matB cfg · i) (Fin.ext (Nat.add_sub_cancel_left 12 j))

/-- I12 is the identity of the product: column `i` selects bit `i` alone. -/
@[simp] theorem Gf2.vecmat_identity12 (v : Vec12) : Gf2.vecmat v identity12 = v := by
  refine Gf2.ext fun i => ?_
  rw [Gf2.get_vecmat, Gf2.xorSum_single i]
  · simp [identity12]
  · intro j hj
    simp [identity12, hj.symm]

/-- `H = [I ; B]` acts by halves: I12 on the low half of the vector and B on the high half. -/
theorem syndrome_eq_low_xor_vecmat_high (cfg : Config) (w : Vec24) :
    Golay.syndrome cfg w = Gf2.xorWith (Gf2.low w) (Gf2.vecmat (Gf2.high w) (matB cfg)) := by
  refine Gf2.ext fun i => ?_
  calc Gf2.get (Golay.syndrome cfg w) i
      = Gf2.xorSum (12 + 12) (fun j => Gf2.get w j && matH cfg j i) := Gf2.get_vecmat w (matH cfg) i
    _ = (Gf2.get (Gf2.vecmat (Gf2.low w) identity12) i ^^ Gf2.get (Gf2.vecmat (Gf2.high w) (matB cfg)) i) := by
        rw [Gf2.xorSum_add]
        simp only [matH_castAdd, matH_natAdd, Gf2.get_vecmat, Gf2.get_low, Gf2.get_high]
    _ = Gf2.get (Gf2.xorWith (Gf2.low w) (Gf2.vecmat (Gf2.high w) (matB cfg))) i := by
        rw [Gf2.vecmat_identity12, Gf2.get_xorWith]

/-- Settles O35: the syndrome is the product with H, so its bits are parities; H acts by halves; and the packed value is
`toNat_syndrome`. -/
theorem syndromeIsTheProductWithH : Obligations.SyndromeIsTheProductWithH :=
  fun cfg w => ⟨Gf2.get_vecmat_eq_oddMany w (matH cfg), syndrome_eq_low_xor_vecmat_high cfg w, toNat_syndrome cfg w⟩

end Sys2Proof.Machine

/-! ### The decoder unit (43_decoder.md rules R121 and R123 to R131) -/

namespace Sys2Proof.Machine

/-! The weight of a vector given by its halves, and the unit vectors. -/

/-- A count over `m + n` indices is the count over the first `n` and the count over the other `m`. -/
theorem Gf2.countTrue_add (m n : Nat) (f : Nat → Bool) :
    Gf2.countTrue (m + n) (fun i => f i.val) =
      Gf2.countTrue n (fun i => f i.val) + Gf2.countTrue m fun i => f (n + i.val) := by
  rw [Nat.add_comm m n]
  induction m with
  | zero => rfl
  | succ m ih => exact (congrArg (· + _) ih).trans (Nat.add_assoc _ _ _)

theorem Gf2.wt_cat {n m : Nat} (a : BitVec n) (b : BitVec m) :
    Gf2.wt (Gf2.cat a b) = Gf2.wt a + Gf2.wt b := by
  refine (Gf2.countTrue_add m n (Gf2.cat a b).getLsbD).trans ?_
  simp [Gf2.getLsbD_cat, Gf2.wt, Gf2.get_eq_getLsbD]

@[simp] theorem Gf2.wt_unit (k : Fin 12) : Gf2.wt (Gf2.unit k) = 1 := by
  revert k; decide

theorem Gf2.wt_ofBool (b : Bool) : Gf2.wt (BitVec.ofBool b) = b.toNat := by
  cases b <;> rfl

theorem Gf2.cat_xor_cat {n m : Nat} (a a' : BitVec n) (b b' : BitVec m) :
    Gf2.cat a b ^^^ Gf2.cat a' b' = Gf2.cat (a ^^^ a') (b ^^^ b') := BitVec.xor_append

theorem Gf2.unit_injective : Function.Injective Gf2.unit := by
  intro j k h
  simpa using congrArg (Gf2.get · j) h

theorem Gf2.zeros_ne_unit (k : Fin 12) : Gf2.zeros 12 ≠ Gf2.unit k := by
  revert k; decide

theorem Gf2.getLsb_of_eq_unit {v : Vec12} {k : Fin 12} (h : v = Gf2.unit k) (i : Fin 12) :
    v.getLsb i = decide (i = k) := by
  rw [h]
  exact Gf2.get_unit k i

/-! The locator answers the first stage whose pattern has weight at most 3 (rules R123 to R127 and R131): the tests
`wt(s) <= 3` and `wt(s XOR B[k]) <= 2` are that one test, because the other half of the pattern is `0^12` or `e_k`. -/

/-- The pattern that a stage of the locator gives for the syndrome `s`. -/
def Stage.pattern (cfg : Config) (s : Vec12) : Stage → Vec24
  | .a => patternA s
  | .b k => patternB cfg s k
  | .c1 => patternC1 (Golay.syn2 cfg s)
  | .c2 k => patternC2 cfg (Golay.syn2 cfg s) k

/-- The stages that the locator tries before a given one (rule R131). -/
def Stage.TriedBefore (st' : Stage) : Stage → Prop
  | .a => False
  | .b k => st' = .a ∨ ∃ j, st' = .b j ∧ j < k
  | .c1 => st' = .a ∨ ∃ j, st' = .b j
  | .c2 k => st' = .a ∨ (∃ j, st' = .b j) ∨ st' = .c1 ∨ ∃ j, st' = .c2 j ∧ j < k

/-- The stage's pattern has weight at most 3, and that of every stage tried before it is heavier. -/
def Stage.IsFirst (cfg : Config) (s : Vec12) (st : Stage) : Prop :=
  Gf2.wt (st.pattern cfg s) ≤ 3 ∧ ∀ st' : Stage, st'.TriedBefore st → 3 < Gf2.wt (st'.pattern cfg s)

theorem Stage.forall_iff {p : Stage → Prop} :
    (∀ st, p st) ↔ p .a ∧ (∀ k, p (.b k)) ∧ p .c1 ∧ ∀ k, p (.c2 k) :=
  ⟨fun h => ⟨h _, fun _ => h _, h _, fun _ => h _⟩, fun ⟨ha, hb, hc1, hc2⟩ st => by
    cases st with
    | a => exact ha
    | b k => exact hb k
    | c1 => exact hc1
    | c2 k => exact hc2 k⟩

section
variable (cfg : Config) (s : Vec12) (k : Fin 12)

@[simp] theorem Stage.wt_pattern_a : Gf2.wt (Stage.a.pattern cfg s) = Gf2.wt s :=
  (Gf2.wt_cat s (Gf2.zeros 12)).trans (by rw [Gf2.wt_zeros, Nat.add_zero])

@[simp] theorem Stage.wt_pattern_b : Gf2.wt ((Stage.b k).pattern cfg s) = Gf2.wt (s ^^^ rowB cfg k) + 1 :=
  (Gf2.wt_cat _ _).trans (congrArg _ (Gf2.wt_unit k))

@[simp] theorem Stage.wt_pattern_c1 : Gf2.wt (Stage.c1.pattern cfg s) = Gf2.wt (Golay.syn2 cfg s) :=
  (Gf2.wt_cat (Gf2.zeros 12) _).trans (by rw [Gf2.wt_zeros, Nat.zero_add])

@[simp] theorem Stage.wt_pattern_c2 :
    Gf2.wt ((Stage.c2 k).pattern cfg s) = Gf2.wt (Golay.syn2 cfg s ^^^ rowB cfg k) + 1 :=
  (Gf2.wt_cat _ _).trans (by rw [Gf2.wt_unit, Nat.add_comm]; rfl)

theorem Stage.isFirst_a_iff : Stage.a.IsFirst cfg s ↔ Gf2.wt s ≤ 3 := by
  simp [Stage.IsFirst, Stage.TriedBefore]

theorem Stage.isFirst_b_iff : (Stage.b k).IsFirst cfg s ↔
    3 < Gf2.wt s ∧ Gf2.wt (s ^^^ rowB cfg k) ≤ 2 ∧ ∀ j, j < k → 2 < Gf2.wt (s ^^^ rowB cfg j) := by
  simp [Stage.IsFirst, Stage.TriedBefore, Stage.forall_iff, Nat.lt_iff_add_one_le, -Order.add_one_le_iff,
    and_left_comm]

theorem Stage.isFirst_c1_iff : Stage.c1.IsFirst cfg s ↔
    3 < Gf2.wt s ∧ (∀ j, 2 < Gf2.wt (s ^^^ rowB cfg j)) ∧ Gf2.wt (Golay.syn2 cfg s) ≤ 3 := by
  simp [Stage.IsFirst, Stage.TriedBefore, Nat.lt_iff_add_one_le, -Order.add_one_le_iff, and_left_comm, and_comm]

theorem Stage.isFirst_c2_iff : (Stage.c2 k).IsFirst cfg s ↔
    3 < Gf2.wt s ∧ (∀ j, 2 < Gf2.wt (s ^^^ rowB cfg j)) ∧ 3 < Gf2.wt (Golay.syn2 cfg s) ∧
      Gf2.wt (Golay.syn2 cfg s ^^^ rowB cfg k) ≤ 2 ∧
      ∀ j, j < k → 2 < Gf2.wt (Golay.syn2 cfg s ^^^ rowB cfg j) := by
  simp [Stage.IsFirst, Stage.TriedBefore, Stage.forall_iff, Nat.lt_iff_add_one_le, -Order.add_one_le_iff,
    and_left_comm]

theorem Stage.forall_heavy_iff : (∀ st : Stage, 3 < Gf2.wt (st.pattern cfg s)) ↔
    3 < Gf2.wt s ∧ (∀ k, 2 < Gf2.wt (s ^^^ rowB cfg k)) ∧
      3 < Gf2.wt (Golay.syn2 cfg s) ∧ ∀ k, 2 < Gf2.wt (Golay.syn2 cfg s ^^^ rowB cfg k) := by
  rw [Stage.forall_iff]
  simp [Nat.lt_iff_add_one_le, -Order.add_one_le_iff]

@[simp] theorem fitsDirect_iff (v : Vec12) : fitsDirect v = true ↔ Gf2.wt v ≤ 3 := decide_eq_true_iff

@[simp] theorem fitsRow_iff (v : Vec12) : fitsRow v = true ↔ Gf2.wt v ≤ 2 := decide_eq_true_iff

@[simp] theorem fitsRow_eq_false_iff (v : Vec12) : fitsRow v = false ↔ 2 < Gf2.wt v := by
  rw [← Bool.not_eq_true, fitsRow_iff, Nat.not_le]

/-- The row scan answers the lowest row that passes. -/
theorem scanRows_eq_some_iff : scanRows cfg s = some k ↔
    Gf2.wt (s ^^^ rowB cfg k) ≤ 2 ∧ ∀ j, j < k → 2 < Gf2.wt (s ^^^ rowB cfg j) := by
  simp only [scanRows, firstRow_eq_some, fitsRow_iff, fitsRow_eq_false_iff, Gf2.xorWith]

theorem scanRows_eq_none_iff : scanRows cfg s = none ↔ ∀ k, 2 < Gf2.wt (s ^^^ rowB cfg k) := by
  simp only [scanRows, firstRow_eq_none, fitsRow_eq_false_iff, Gf2.xorWith]

end

/-- Either some stage is the first to pass, or none passes. -/
theorem Stage.exists_isFirst_or (cfg : Config) (s : Vec12) :
    (∃ st : Stage, st.IsFirst cfg s) ∨ ∀ st : Stage, 3 < Gf2.wt (st.pattern cfg s) := by
  rcases Nat.lt_or_ge 3 (Gf2.wt s) with hA | hA
  case inr => exact .inl ⟨.a, (Stage.isFirst_a_iff cfg s).2 hA⟩
  cases hB : scanRows cfg s with
  | some k => exact .inl ⟨.b k, (Stage.isFirst_b_iff cfg s k).2 ⟨hA, (scanRows_eq_some_iff cfg s k).1 hB⟩⟩
  | none =>
    rw [scanRows_eq_none_iff] at hB
    rcases Nat.lt_or_ge 3 (Gf2.wt (Golay.syn2 cfg s)) with hC1 | hC1
    case inr => exact .inl ⟨.c1, (Stage.isFirst_c1_iff cfg s).2 ⟨hA, hB, hC1⟩⟩
    cases hC2 : scanRows cfg (Golay.syn2 cfg s) with
    | some k =>
      exact .inl ⟨.c2 k, (Stage.isFirst_c2_iff cfg s k).2 ⟨hA, hB, hC1, (scanRows_eq_some_iff cfg _ k).1 hC2⟩⟩
    | none =>
      rw [scanRows_eq_none_iff] at hC2
      exact .inr ((Stage.forall_heavy_iff cfg s).2 ⟨hA, hB, hC1, hC2⟩)

/-- The locator answers the first stage that passes, with its pattern. -/
theorem Golay.locate_of_isFirst {cfg : Config} {s : Vec12} {st : Stage} (h : st.IsFirst cfg s) :
    Golay.locate cfg s = some { stage := st, u := st.pattern cfg s } := by
  cases st with
  | a =>
    rw [Stage.isFirst_a_iff] at h
    simp [Golay.locate, h, Stage.pattern]
  | b k =>
    rw [Stage.isFirst_b_iff, ← scanRows_eq_some_iff, ← Nat.not_le] at h
    simp [Golay.locate, h, Stage.pattern]
  | c1 =>
    rw [Stage.isFirst_c1_iff, ← scanRows_eq_none_iff, ← Nat.not_le] at h
    simp [Golay.locate, locateSecond, h, Stage.pattern]
  | c2 k =>
    rw [Stage.isFirst_c2_iff, ← scanRows_eq_none_iff, ← scanRows_eq_some_iff, ← Nat.not_le, ← Nat.not_le] at h
    simp [Golay.locate, locateSecond, h, Stage.pattern]

/-- The locator has no answer when no stage passes (rule R127). -/
theorem Golay.locate_of_heavy {cfg : Config} {s : Vec12} (h : ∀ st : Stage, 3 < Gf2.wt (st.pattern cfg s)) :
    Golay.locate cfg s = none := by
  rw [Stage.forall_heavy_iff, ← scanRows_eq_none_iff, ← scanRows_eq_none_iff, ← Nat.not_le, ← Nat.not_le] at h
  simp [Golay.locate, locateSecond, h]

theorem Golay.locate_eq_some_iff {cfg : Config} {s : Vec12} {l : Located} :
    Golay.locate cfg s = some l ↔ l.stage.IsFirst cfg s ∧ l.u = l.stage.pattern cfg s := by
  obtain ⟨stage, u⟩ := l
  constructor
  · intro h
    obtain ⟨st, hst⟩ | hnone := Stage.exists_isFirst_or cfg s
    · rw [Golay.locate_of_isFirst hst] at h
      cases h
      exact ⟨hst, rfl⟩
    · rw [Golay.locate_of_heavy hnone] at h
      cases h
  · rintro ⟨hst, hu⟩
    obtain rfl : u = stage.pattern cfg s := hu
    exact Golay.locate_of_isFirst hst

theorem Golay.locate_eq_none_iff {cfg : Config} {s : Vec12} :
    Golay.locate cfg s = none ↔ ∀ st : Stage, 3 < Gf2.wt (st.pattern cfg s) := by
  refine ⟨fun h => ?_, Golay.locate_of_heavy⟩
  obtain ⟨st, hst⟩ | hnone := Stage.exists_isFirst_or cfg s
  · rw [Golay.locate_of_isFirst hst] at h
    cases h
  · exact hnone

/-- Settles O41: the located stage is the first that passes, and that is what the statement says of each stage. -/
theorem locatorPicksTheEarliestCase : Obligations.LocatorPicksTheEarliestCase := by
  intro cfg s st
  have hfirst : (Golay.locate cfg s).map Located.stage = some st ↔ st.IsFirst cfg s := by
    rw [Option.map_eq_some_iff]
    constructor
    · rintro ⟨l, hl, rfl⟩
      exact (Golay.locate_eq_some_iff.1 hl).1
    · exact fun h => ⟨_, Golay.locate_of_isFirst h, rfl⟩
  refine hfirst.trans ?_
  cases st with
  | a => exact Stage.isFirst_a_iff cfg s
  | b k => exact Stage.isFirst_b_iff cfg s k
  | c1 => exact Stage.isFirst_c1_iff cfg s
  | c2 k => exact Stage.isFirst_c2_iff cfg s k

/-! The procedure and its failure (rules R127 to R130). -/

theorem Golay.decode_of_locate_eq_none {cfg : Config} {r : Vec23}
    (h : Golay.locate cfg (Golay.syndrome cfg (Golay.extend r)) = none) :
    Golay.decode cfg r = .fail .decodingFailure := by
  rw [Golay.decode, h]

theorem Golay.decode_of_locate_eq_some {cfg : Config} {r : Vec23} {l : Located}
    (h : Golay.locate cfg (Golay.syndrome cfg (Golay.extend r)) = some l) :
    Golay.decode cfg r = .ok (Golay.correct (Golay.extend r) l.u) := by
  rw [Golay.decode, h]

theorem Golay.decode_eq_fail_iff (cfg : Config) (r : Vec23) :
    Golay.decode cfg r = .fail .decodingFailure ↔
      Golay.locate cfg (Golay.syndrome cfg (Golay.extend r)) = none := by
  refine ⟨fun h => ?_, Golay.decode_of_locate_eq_none⟩
  cases hl : Golay.locate cfg (Golay.syndrome cfg (Golay.extend r)) with
  | none => rfl
  | some l =>
    rw [Golay.decode_of_locate_eq_some hl] at h
    cases h

/-- Only a failed location is answered with status `0x03`: the word of a message has status `0x00`. -/
theorem rspWord_messageOutcome_decode_eq_failWord_iff (cfg : Config) (r : Vec23) :
    rspWord (messageOutcome (Golay.decode cfg r)) = failWord .decodingFailure ↔
      Golay.decode cfg r = .fail .decodingFailure := by
  refine ⟨fun h => ?_, fun h => by rw [h]; rfl⟩
  obtain ⟨msg, hmsg⟩ | hfail := Golay.decode_cases cfg r
  · rw [hmsg, messageOutcome, rspWord] at h
    have hstatus := status_okWord (resultField msg)
    rw [h, status_failWord] at hstatus
    exact absurd hstatus (by decide)
  · exact hfail

theorem encode_dec_zero (r : Vec23) : Sys2Proof.encode (.dec 0#1 r) = BitVec.ofNat 32 (3 * 2 ^ 24 + r.toNat) := by
  have hval : (Sys2Proof.encode (.dec 0#1 r)).toNat = 3 * 2 ^ 24 + r.toNat := toNat_encode_dec 0#1 r
  rw [← hval, BitVec.ofNat_toNat, BitVec.setWidth_eq]

/-- Settles O19: `DEC` records its response word, which is that of the failure exactly when no stage passes. -/
theorem decFailsExactlyWhenNoCaseMatches : Obligations.DecFailsExactlyWhenNoCaseMatches := by
  intro s r
  have hword : failWord .decodingFailure = 0x03000000#32 := rfl
  refine (Stage.forall_heavy_iff s.cfg _).symm.trans ?_
  rw [← Golay.locate_eq_none_iff, ← Golay.decode_eq_fail_iff, ← rspWord_messageOutcome_decode_eq_failWord_iff,
    exec_eq_record, outcomeOf_dec_zero, encode_dec_zero, hword]
  simp [State.record]

theorem Golay.getLsb_correct (w u : Vec24) (i : Fin 12) : (Golay.correct w u).getLsb i = (w ^^^ u).getLsbD i :=
  Gf2.get_low (Gf2.xorWith w u) i

/-- Settles O43: `locate` and `decode` compute on vectors what the reference computes on packed values. -/
theorem decodeIsThePackedProcedure : Obligations.DecodeIsThePackedProcedure := by
  refine ⟨fun cfg s => (packedLocate_eq_locate cfg s).symm, fun cfg r => ?_, fun cfg r l hl => ?_⟩
  · rw [packedDecode_eq_map_locate]
    cases hl : Golay.locate cfg (Golay.syndrome cfg (Golay.extend r)) with
    | none => simp [Golay.decode_of_locate_eq_none hl]
    | some l => simp [Golay.decode_of_locate_eq_some hl, BitVec.toNat_inj]
  · exact ⟨_, Golay.decode_of_locate_eq_some hl, Golay.getLsb_correct _ _⟩

/-! The syndrome under requirement R34: two errors of weight at most 3 with one syndrome are the same error. -/

@[simp] theorem Gf2.vecmat_unit {c : Nat} (k : Fin 12) (M : BitMat 12 c) :
    Gf2.vecmat (Gf2.unit k) M = Gf2.row M k := by
  refine Gf2.ext fun i => ?_
  rw [Gf2.get_vecmat, Gf2.xorSum_single k]
  · simp
  · intro j hj
    simp [hj]

/-- Multiplying by two matrices in turn is multiplying by their product. -/
theorem Gf2.vecmat_vecmat {r n c : Nat} (v : BitVec r) (M : BitMat r n) (N : BitMat n c) :
    Gf2.vecmat (Gf2.vecmat v M) N = Gf2.vecmat v fun j i => Gf2.xorSum n fun k => M j k && N k i := by
  refine Gf2.ext fun i => ?_
  simp only [Gf2.get_vecmat]
  calc Gf2.xorSum n (fun k => Gf2.xorSum r (fun j => Gf2.get v j && M j k) && N k i)
      = Gf2.xorSum n fun k => Gf2.xorSum r fun j => Gf2.get v j && (M j k && N k i) :=
        Gf2.xorSum_congr fun k => by
          rw [Bool.and_comm, ← Gf2.xorSum_and]
          exact Gf2.xorSum_congr fun j => by rw [Bool.and_comm, Bool.and_assoc]
    _ = Gf2.xorSum r fun j => Gf2.xorSum n fun k => Gf2.get v j && (M j k && N k i) := Gf2.xorSum_comm _
    _ = _ := Gf2.xorSum_congr fun j => Gf2.xorSum_and _ _

theorem Golay.syn2_xor (cfg : Config) (a b : Vec12) :
    Golay.syn2 cfg (a ^^^ b) = Golay.syn2 cfg a ^^^ Golay.syn2 cfg b := Gf2.vecmat_xorWith a b _

theorem Golay.syndrome_xor (cfg : Config) (a b : Vec24) :
    Golay.syndrome cfg (a ^^^ b) = Golay.syndrome cfg a ^^^ Golay.syndrome cfg b := Gf2.vecmat_xorWith a b _

@[simp] theorem Golay.syn2_zeros (cfg : Config) : Golay.syn2 cfg (Gf2.zeros 12) = 0#12 := Gf2.vecmat_zeros _

@[simp] theorem Golay.syn2_unit (cfg : Config) (k : Fin 12) : Golay.syn2 cfg (Gf2.unit k) = rowB cfg k :=
  Gf2.vecmat_unit k _

@[simp] theorem Golay.syndrome_cat (cfg : Config) (lo hi : Vec12) :
    Golay.syndrome cfg (Gf2.cat lo hi) = lo ^^^ Golay.syn2 cfg hi := by
  rw [syndrome_eq_low_xor_vecmat_high, Gf2.low_cat, Gf2.high_cat]
  rfl

section
variable {cfg : Config} (h34 : meetsR34 cfg)
include h34

theorem Golay.syn2_syn2 (s : Vec12) : Golay.syn2 cfg (Golay.syn2 cfg s) = s := by
  have hinv : (fun j i => Gf2.xorSum 12 fun k => matB cfg j k && matB cfg k i) = identity12 :=
    funext₂ (meetsR34_involution h34)
  rw [Golay.syn2, Golay.syn2, Gf2.vecmat_vecmat, hinv, Gf2.vecmat_identity12]

theorem Golay.syn2_rowB (k : Fin 12) : Golay.syn2 cfg (rowB cfg k) = Gf2.unit k := by
  rw [← Golay.syn2_unit, Golay.syn2_syn2 h34]

theorem eq_extCodeword_of_syndrome_eq_zero {w : Vec24} (hw : Golay.syndrome cfg w = 0#12) :
    w = extCodeword cfg (Gf2.low w) := by
  rw [syndrome_eq_low_xor_vecmat_high] at hw
  have hlow : Gf2.low w = Golay.syn2 cfg (Gf2.high w) := BitVec.xor_eq_zero_iff.1 hw
  have hhigh : Gf2.high w = Golay.syn2 cfg (Gf2.low w) := by rw [hlow, Golay.syn2_syn2 h34]
  exact (Gf2.cat_low_high w).symm.trans (congrArg (Gf2.cat (Gf2.low w)) hhigh)

/-- A vector with syndrome zero is a codeword of the extended code, so its weight is at least the distance 8. -/
theorem eight_le_wt_of_syndrome_eq_zero {w : Vec24} (hw : Golay.syndrome cfg w = 0#12) (hne : w ≠ 0#24) :
    8 ≤ Gf2.wt w := by
  have hcode := eq_extCodeword_of_syndrome_eq_zero h34 hw
  have hzero : extCodeword cfg (Gf2.zeros 12) = 0#24 := congrArg (Gf2.cat (Gf2.zeros 12)) (Golay.syn2_zeros cfg)
  have hlow : Gf2.low w ≠ Gf2.zeros 12 := fun h => hne (by rw [hcode, h, hzero])
  have hdist := meetsR34_distance h34 hlow
  rwa [← hcode, hzero, Gf2.xorWith, BitVec.xor_zero] at hdist

theorem eq_of_syndrome_eq {e e' : Vec24} (hs : Golay.syndrome cfg e = Golay.syndrome cfg e')
    (hw : Gf2.wt e ≤ 3) (hw' : Gf2.wt e' ≤ 3) : e = e' := by
  by_contra hne
  have hdist : 8 ≤ Gf2.wt (e ^^^ e') :=
    eight_le_wt_of_syndrome_eq_zero h34 (by rw [Golay.syndrome_xor, hs, BitVec.xor_self])
      (fun h => hne (BitVec.xor_eq_zero_iff.1 h))
  have hsum := Gf2.wt_xor_add_two_mul_wt_and e e'
  omega

/-- Whatever the stage, its pattern explains the syndrome it was made from. -/
theorem Golay.syndrome_pattern (s : Vec12) (st : Stage) : Golay.syndrome cfg (st.pattern cfg s) = s := by
  cases st with
  | a => simp [Stage.pattern, patternA]
  | b k => simp [Stage.pattern, patternB, Gf2.xorWith]
  | c1 => simp [Stage.pattern, patternC1, Golay.syn2_syn2 h34, Gf2.zeros]
  | c2 k =>
    rw [Stage.pattern, patternC2, Golay.syndrome_cat, Gf2.xorWith, Golay.syn2_xor, Golay.syn2_syn2 h34,
      Golay.syn2_rowB h34, BitVec.xor_comm s, ← BitVec.xor_assoc, BitVec.xor_self, BitVec.zero_xor]

/-- An error of weight at most 3 is located by a stage that gives it as its pattern, when no stage tried before does:
an earlier stage that passed would give a second error of that weight with the same syndrome. -/
theorem Golay.locate_syndrome_eq {e : Vec24} {st : Stage} (hw : Gf2.wt e ≤ 3)
    (hst : st.pattern cfg (Golay.syndrome cfg e) = e)
    (hbefore : ∀ st' : Stage, st'.TriedBefore st → st'.pattern cfg (Golay.syndrome cfg e) ≠ e) :
    Golay.locate cfg (Golay.syndrome cfg e) = some { stage := st, u := e } := by
  have hfirst : st.IsFirst cfg (Golay.syndrome cfg e) := by
    refine ⟨by rwa [hst], fun st' hst' => Nat.lt_of_not_le fun hle => hbefore st' hst' ?_⟩
    exact eq_of_syndrome_eq h34 (Golay.syndrome_pattern h34 _ _) hle hw
  rw [Golay.locate_of_isFirst hfirst, hst]

end

/-! The error that each stage gives back, by the half in which the stage knows it (rules R123 to R126). -/

theorem Stage.pattern_a_syndrome (cfg : Config) (lo : Vec12) :
    Stage.a.pattern cfg (Golay.syndrome cfg (Gf2.cat lo (Gf2.zeros 12))) = Gf2.cat lo (Gf2.zeros 12) := by
  simp [Stage.pattern, patternA]

theorem Stage.pattern_b_syndrome (cfg : Config) (lo : Vec12) (k : Fin 12) :
    (Stage.b k).pattern cfg (Golay.syndrome cfg (Gf2.cat lo (Gf2.unit k))) = Gf2.cat lo (Gf2.unit k) := by
  simp [Stage.pattern, patternB, Gf2.xorWith]

theorem Stage.pattern_c1_syndrome {cfg : Config} (h34 : meetsR34 cfg) (hi : Vec12) :
    Stage.c1.pattern cfg (Golay.syndrome cfg (Gf2.cat (Gf2.zeros 12) hi)) = Gf2.cat (Gf2.zeros 12) hi := by
  simp [Stage.pattern, patternC1, Golay.syn2_xor, Golay.syn2_syn2 h34]

theorem Stage.pattern_c2_syndrome {cfg : Config} (h34 : meetsR34 cfg) (hi : Vec12) (k : Fin 12) :
    (Stage.c2 k).pattern cfg (Golay.syndrome cfg (Gf2.cat (Gf2.unit k) hi)) = Gf2.cat (Gf2.unit k) hi := by
  rw [Stage.pattern, patternC2, Golay.syndrome_cat, Golay.syn2_xor, Golay.syn2_syn2 h34, Golay.syn2_unit,
    BitVec.xor_comm, Gf2.xorWith, BitVec.xor_assoc, BitVec.xor_self, BitVec.xor_zero]

/-- Cases A and B explain at most one error in the high half. -/
theorem Stage.pattern_ne_cat (cfg : Config) (s lo : Vec12) {hi : Vec12} {st : Stage} (hhi : 2 ≤ Gf2.wt hi)
    (hst : st.TriedBefore .c1) : st.pattern cfg s ≠ Gf2.cat lo hi := by
  intro heq
  have hle : Gf2.wt (Gf2.high (st.pattern cfg s)) ≤ 1 := by
    obtain rfl | ⟨k, rfl⟩ := hst <;> simp [Stage.pattern]
  rw [heq, Gf2.high_cat] at hle
  omega

/-- Settles O42: the halves are those of the stage's pattern; and the stage that gives the error back is the first to do
so, because each stage before it puts something else into the high half, or (C1 before C2) nothing into the low half. -/
theorem locatorFindsTheErrorByWhereItLies : Obligations.LocatorFindsTheErrorByWhereItLies := by
  refine ⟨fun cfg s l hl => ?_, fun cfg lo hi h34 hw => ?_⟩
  · obtain ⟨stage, u⟩ := l
    obtain ⟨hfirst, hu⟩ := Golay.locate_eq_some_iff.1 hl
    obtain rfl : u = stage.pattern cfg s := hu
    cases stage with
    | a => exact ⟨(Stage.isFirst_a_iff cfg s).1 hfirst, low_patternA s, high_patternA s⟩
    | b k =>
      obtain ⟨hA, hB, -⟩ := (Stage.isFirst_b_iff cfg s k).1 hfirst
      exact ⟨hA, hB, low_patternB cfg s k, Gf2.getLsb_of_eq_unit (high_patternB cfg s k)⟩
    | c1 =>
      obtain ⟨-, -, hC1⟩ := (Stage.isFirst_c1_iff cfg s).1 hfirst
      exact ⟨hC1, low_patternC1 _, high_patternC1 _⟩
    | c2 k =>
      obtain ⟨-, -, hC1, hC2, -⟩ := (Stage.isFirst_c2_iff cfg s k).1 hfirst
      exact ⟨hC1, hC2, Gf2.getLsb_of_eq_unit (low_patternC2 cfg _ k), high_patternC2 cfg _ k⟩
  rw [← Gf2.wt_cat] at hw
  refine ⟨fun hhi => ?_, fun k hhi => ?_, fun hhi hlo => ?_, fun k hhi hlo => ?_⟩
  · obtain rfl : hi = Gf2.zeros 12 := hhi
    exact Golay.locate_syndrome_eq h34 hw (Stage.pattern_a_syndrome cfg lo) fun _ => False.elim
  · subst hhi
    refine Golay.locate_syndrome_eq h34 hw (Stage.pattern_b_syndrome cfg lo k) fun st' hst' heq => ?_
    have hhigh := congrArg Gf2.high heq
    rw [Gf2.high_cat] at hhigh
    obtain rfl | ⟨j, rfl, hj⟩ := hst'
    · exact Gf2.zeros_ne_unit k ((high_patternA _).symm.trans hhigh)
    · exact hj.ne (Gf2.unit_injective ((high_patternB cfg _ j).symm.trans hhigh))
  · obtain rfl : lo = Gf2.zeros 12 := hlo
    refine Golay.locate_syndrome_eq h34 hw (Stage.pattern_c1_syndrome h34 hi) fun st' hst' => ?_
    exact Stage.pattern_ne_cat cfg _ _ hhi hst'
  · subst hlo
    refine Golay.locate_syndrome_eq h34 hw (Stage.pattern_c2_syndrome h34 hi k) fun st' hst' heq => ?_
    have hlow := congrArg Gf2.low heq
    rw [Gf2.low_cat] at hlow
    obtain hAB | rfl | ⟨j, rfl, hj⟩ := or_assoc.2 hst'
    · exact Stage.pattern_ne_cat cfg _ _ hhi hAB heq
    · exact Gf2.zeros_ne_unit k ((low_patternC1 _).symm.trans hlow)
    · exact hj.ne (Gf2.unit_injective ((low_patternC2 cfg _ j).symm.trans hlow))

/-! The extended vector (rule R121). -/

theorem wt_extend (r : Vec23) : Gf2.wt (Golay.extend r) = Gf2.wt r + (appendedBit r).toNat := by
  rw [Golay.extend, Gf2.wt_cat, Gf2.wt_ofBool]

theorem appendedBit_iff (r : Vec23) : appendedBit r = true ↔ Gf2.wt r % 2 = 0 := decide_eq_true_iff

theorem wt_extend_odd (r : Vec23) : Gf2.wt (Golay.extend r) % 2 = 1 := by
  rw [wt_extend, appendedBit]
  rcases Nat.mod_two_eq_zero_or_one (Gf2.wt r) with h | h <;> simp [h, Nat.add_mod]

/-- Columns 0 to 22 of `[I | B]` are G, so the codeword is the extended one without its last bit. -/
theorem getLsbD_extCodeword (cfg : Config) (m : Vec12) (i : Fin 23) :
    (extCodeword cfg m).getLsbD i = Gf2.get (Golay.encode cfg m) i := by
  rw [extCodeword, Gf2.getLsbD_cat, Golay.encode, Gf2.get_vecmat]
  split
  case isTrue h =>
    simp only [matG_low _ _ _ h, ← Gf2.get_vecmat, Gf2.vecmat_identity12]
    rfl
  case isFalse h =>
    simp only [matG_high _ _ _ h, ← Gf2.get_vecmat]
    rfl

theorem extCodeword_eq_cat_encode (cfg : Config) (m : Vec12) :
    ∃ p : BitVec 1, extCodeword cfg m = Gf2.cat (Golay.encode cfg m) p := by
  refine ⟨BitVec.ofBool ((extCodeword cfg m).getLsbD 23), BitVec.eq_of_getLsbD_eq fun i hi => ?_⟩
  rw [Gf2.getLsbD_cat]
  split
  case isTrue h => exact getLsbD_extCodeword cfg m ⟨i, h⟩
  case isFalse h =>
    obtain rfl : i = 23 := by omega
    simp

/-- Settles O39: the extended received vector and the extended codeword differ in `e` and at most in the last bit; their
weights are odd and even, so they differ in an odd number of bits, which decides the last one. -/
theorem extensionHasOddWeight : Obligations.ExtensionHasOddWeight := by
  refine ⟨fun r => ⟨fun i => ?_, ?_, wt_extend_odd r⟩, fun cfg m e h34 => ?_, by decide +kernel, by decide +kernel⟩
  · rw [getLsbD_extend, if_pos i.isLt]
    rfl
  · rw [getLsbD_extend]
    exact appendedBit_iff r
  · obtain ⟨p, hp⟩ := extCodeword_eq_cat_encode cfg m
    have hodd := wt_extend_odd (Golay.encode cfg m ^^^ e)
    have heven := meetsR34_even h34 m
    have hparity := Gf2.wt_xor_add_two_mul_wt_and (Golay.extend (Golay.encode cfg m ^^^ e)) (extCodeword cfg m)
    obtain ⟨q, hq⟩ : ∃ q : BitVec 1, Golay.extend (Golay.encode cfg m ^^^ e) ^^^ extCodeword cfg m = Gf2.cat e q :=
      ⟨_, by rw [hp, Golay.extend, Gf2.cat_xor_cat, BitVec.xor_comm _ e, BitVec.xor_assoc, BitVec.xor_self,
        BitVec.xor_zero]⟩
    have hlast := Gf2.wt_le q
    rw [hq, Gf2.wt_cat] at hparity ⊢
    split <;> omega

end Sys2Proof.Machine

/-! ### The order of the tests (60_exceptions.md rule R156) -/

namespace Sys2Proof.Machine

/-- The packed operand of `DEC`, the low 23 bits of `data`, is its received vector (30_encoding.md rule R62). -/
theorem operand_encode_dec (z : BitVec 1) (r : Vec23) :
    BitVec.ofNat 23 ((Sys2Proof.encode (.dec z r)).toNat % 2 ^ 24) = r := by
  refine BitVec.eq_of_toNat_eq ?_
  rw [data_encode_dec, BitVec.toNat_ofNat]
  omega

/-- Once the length check of `DEC` is passed, the status says whether `decode` succeeded. -/
theorem status_respond_dec_zero (cfg : Config) (r : Vec23) :
    (respond cfg (Sys2Proof.encode (.dec 0#1 r))).toNat / 2 ^ 24 =
      if Golay.decode cfg r = .fail .decodingFailure then 3 else 0 := by
  rw [respond_encode, outcomeOf_dec_zero]
  obtain ⟨msg, h⟩ | h := Golay.decode_cases cfg r <;> rw [h]
  · rw [if_neg nofun]
    exact status_okWord _
  · rfl

theorem status_respond_enc_zero (cfg : Config) (m : Vec12) :
    (respond cfg (Sys2Proof.encode (.enc 0#12 m))).toNat / 2 ^ 24 = 0 := by
  rw [respond_encode, outcomeOf_enc_zero, rspWord, status_okWord]

/-- Settles O12: a reserved `op` and an ill-formed instruction are answered whatever the rest of the word holds; of the
words left, those of the well-formed instructions, only that of `DEC` has an operation that can fail. -/
theorem failuresAreTestedInOrder : Obligations.FailuresAreTestedInOrder := by
  intro s cmd rest hp
  refine ⟨_, _, step_eq_record hp, rfl, ?_⟩
  split
  case isTrue hop =>
    rw [respond_of_reserved hop]
    rfl
  case isFalse hop =>
    split
    case isTrue hmbz =>
      obtain ⟨i, hill, rfl⟩ := exists_illFormed_of_mustBeZero hmbz
      rw [respond_of_illFormed hill]
      rfl
    case isFalse hmbz =>
      rcases word_cases cmd with ⟨z, m, rfl⟩ | ⟨w, rfl⟩ | ⟨z, r, rfl⟩ | ⟨-, hres⟩
      · rw [op_encode_enc, mustBeZero_encode_enc] at hmbz
        obtain rfl : z = 0#12 := BitVec.eq_of_toNat_eq (show z.toNat = 0 by omega)
        rw [op_encode_enc, if_neg (by omega), status_respond_enc_zero]
      · rw [op_encode_syn, if_neg (by omega), status_respond_syn]
      · rw [op_encode_dec, mustBeZero_encode_dec] at hmbz
        obtain rfl : z = 0#1 := BitVec.eq_of_toNat_eq (show z.toNat = 0 by omega)
        rw [status_respond_dec_zero, op_encode_dec, operand_encode_dec]
        simp only [true_and]
      · exact absurd hres hop

end Sys2Proof.Machine

/-! ### Decoder and encoder invert each other (30_encoding.md rules R61 to R65) -/

namespace Sys2Proof

/-- Settles O1: it is the decoder's law `decode_encode`, proved row by row. -/
theorem decodeOfEncodeIsTheInstruction : Obligations.DecodeOfEncodeIsTheInstruction :=
  decode_encode

/-- Settles O2: it is `encode_of_decode`, which puts the decoded slices together again. -/
theorem encodeOfDecodeIsTheWord : Obligations.EncodeOfDecodeIsTheWord :=
  fun _ _ => encode_of_decode

/-- Settles O3: the words that are no instruction's are those whose `op` is reserved. -/
theorem decodeRefusesExactlyTheReservedOps : Obligations.DecodeRefusesExactlyTheReservedOps := by
  intro cmd op
  constructor
  · intro h
    rcases word_cases cmd with ⟨z, m, rfl⟩ | ⟨w, rfl⟩ | ⟨z, r, rfl⟩ | ⟨hres, hop⟩
    · simp at h
    · simp at h
    · simp at h
    · rw [hres] at h
      cases h
      rw [toNat_opOf]
      exact ⟨rfl, hop⟩
  · rintro ⟨hval, hop⟩
    rw [hval] at hop
    rw [decode_of_reserved hop, BitVec.eq_of_toNat_eq ((toNat_opOf cmd).trans hval.symm)]

theorem encode_injective : Function.Injective encode := by
  intro i j h
  have hdec := congrArg decode h
  rw [decode_encode, decode_encode] at hdec
  exact Except.ok.inj hdec

/-! The `wellformed_mask` of a row keeps `op` and the must-be-zero field and clears the operand. -/

theorem encode_enc_and_mask (z : BitVec 12) (m : Vec12) :
    encode (.enc z m) &&& 0xFFFFF000#32 = encode (.enc z 0#12) := by
  show (opEnc ++ (z ++ m)) &&& (BitVec.allOnes 8 ++ (BitVec.allOnes 12 ++ 0#12)) = opEnc ++ (z ++ 0#12)
  rw [BitVec.and_append, BitVec.and_append, BitVec.and_allOnes, BitVec.and_allOnes, BitVec.and_zero]

theorem encode_syn_and_mask (w : Vec24) : encode (.syn w) &&& 0xFF000000#32 = encode (.syn 0#24) := by
  show (opSyn ++ w) &&& (BitVec.allOnes 8 ++ 0#24) = opSyn ++ 0#24
  rw [BitVec.and_append, BitVec.and_allOnes, BitVec.and_zero]

theorem encode_dec_and_mask (z : BitVec 1) (r : Vec23) :
    encode (.dec z r) &&& 0xFF800000#32 = encode (.dec z 0#23) := by
  show (opDec ++ (z ++ r)) &&& (BitVec.allOnes 8 ++ (BitVec.allOnes 1 ++ 0#23)) = opDec ++ (z ++ 0#23)
  rw [BitVec.and_append, BitVec.and_append, BitVec.and_allOnes, BitVec.and_allOnes, BitVec.and_zero]

/-- Settles O5: `wellformed_match` is the masked word of the row's well-formed instructions, and `encode` is
injective. -/
theorem wellFormedIsTheTableMask : Obligations.WellFormedIsTheTableMask := by
  refine ⟨fun z m => ?_, fun w => ?_, fun z r => ?_⟩
  · have hmatch : 0x01000000#32 = encode (.enc 0#12 0#12) := rfl
    rw [Instr.wellFormed_enc, encode_enc_and_mask, hmatch, encode_injective.eq_iff, Instr.enc.injEq]
    simp
  · rw [encode_syn_and_mask]
    exact iff_of_true (Instr.wellFormed_syn w) rfl
  · have hmatch : 0x03000000#32 = encode (.dec 0#1 0#23) := rfl
    rw [Instr.wellFormed_dec, encode_dec_and_mask, hmatch, encode_injective.eq_iff, Instr.dec.injEq]
    simp

/-- Settles O6: the decoder is run on the six words. -/
theorem writtenOutWordsDecode : Obligations.WrittenOutWordsDecode := by
  unfold Obligations.WrittenOutWordsDecode
  decide

end Sys2Proof

/-! ### What an instruction and a step record (30_encoding.md rule R72, 10_state.md rule R31) -/

namespace Sys2Proof.Machine

open Sys2Proof.Reference

/-- Settles O7: it is `step_of_cons` at a word that decodes. -/
theorem stepRunsTheDecodedInstruction : Obligations.StepRunsTheDecodedInstruction := by
  intro s cmd rest i hp hd
  rw [step_of_cons s hp, hd]

/-- Settles O8: with a command pending the step records its response, and without one it faults. -/
theorem stepStopsOnlyWithoutACommand : Obligations.StepStopsOnlyWithoutACommand := by
  refine fun s => ⟨step_of_nil s, fun hne => ?_⟩
  obtain ⟨cmd, rest, hp⟩ := List.exists_cons_of_ne_nil hne
  exact ⟨_, step_eq_record hp⟩

/-- Settles O15: recording a transaction is all that an instruction does to the state. -/
theorem execOnlyRecordsItsTransaction : Obligations.ExecOnlyRecordsItsTransaction := by
  intro i s t h
  rw [exec_eq_record] at h
  cases h
  exact ⟨State.record_cfg _ _ _, State.record_pending _ _ _, _, State.record_history _ _ _⟩

/-- A word is the number it packs. -/
theorem eq_ofNat_of_toNat_eq {w : Word} {n : Nat} (h : w.toNat = n) : w = BitVec.ofNat 32 n := by
  rw [← h, BitVec.ofNat_toNat, BitVec.setWidth_eq]

/-- The response that carries a value is the number that the value packs (30_encoding.md rule R69). -/
theorem okWord_resultField_eq_ofNat {n : Nat} (v : BitVec n) (h : n ≤ 24) :
    okWord (resultField v) = BitVec.ofNat 32 v.toNat :=
  eq_ofNat_of_toNat_eq ((toNat_okWord_resultField v h).trans (packedRsp_zero _))

/-- Settles O16: the recorded word and response of `ENC`, as packed values. -/
theorem encCompletesWithItsCodeword : Obligations.EncCompletesWithItsCodeword := by
  intro s m
  have hcmd : Sys2Proof.encode (.enc 0#12 m) = BitVec.ofNat 32 (2 ^ 24 + m.toNat) :=
    eq_ofNat_of_toNat_eq (toNat_encode_enc 0#12 m)
  rw [exec_eq_record, hcmd, outcomeOf_enc_zero, rspWord, okWord_resultField_eq_ofNat _ (by omega), toNat_golayEncode]
  rfl

/-- Settles O17: the recorded word and response of `SYN`, as packed values. -/
theorem synCompletesWithItsSyndrome : Obligations.SynCompletesWithItsSyndrome := by
  intro s w
  rw [exec_eq_record, eq_ofNat_of_toNat_eq (toNat_encode_syn w), outcomeOf_syn, rspWord,
    okWord_resultField_eq_ofNat _ (by omega), toNat_syndrome]
  rfl

/-- `DEC` records the message that `decode` gives, when it gives one. -/
theorem exec_dec_of_decode_eq_ok {s : State} {r : Vec23} {msg : Vec12} (h : Golay.decode s.cfg r = .ok msg) :
    exec (.dec 0#1 r) s = .next { s with
      history := s.history ++ [{ cmd := BitVec.ofNat 32 (3 * 2 ^ 24 + r.toNat),
                                 rsp := BitVec.ofNat 32 msg.toNat }] } := by
  rw [exec_eq_record, encode_dec_zero, outcomeOf_dec_zero, h, messageOutcome, rspWord,
    okWord_resultField_eq_ofNat _ (by omega)]
  rfl

/-- The appended bit is above the message, so the message is the low bits of `r XOR u` as well. -/
theorem toNat_correct_extend (r : Vec23) (u : Vec24) :
    (Golay.correct (Golay.extend r) u).toNat = (r.toNat ^^^ u.toNat) % 2 ^ 12 := by
  rw [toNat_correct, Golay.extend, toNat_cat, Nat.xor_mod_two_pow, Nat.xor_mod_two_pow]
  congr 1
  omega

/-- Settles O18: the located pattern makes `decode` succeed with the corrected word's first 12 bits. -/
theorem decCompletesWhenAnErrorIsLocated : Obligations.DecCompletesWhenAnErrorIsLocated := by
  intro s r l hl
  rw [exec_dec_of_decode_eq_ok (Golay.decode_of_locate_eq_some hl), toNat_correct_extend]

end Sys2Proof.Machine

/-! ### Runs, hosts and instances (00_scope.md rules R16 to R19, 20_memory.md rule R46, 60_exceptions.md rule R158) -/

namespace Sys2Proof.Machine

open Sys2Proof.Reference

/-- The transaction that answers a command with rule R72's function. -/
def answerTo (cfg : Config) (cmd : Word) : Transaction := { cmd := cmd, rsp := wordStep cfg cmd }

/-- The state in which the first `n` pending commands, or all of them when there are fewer, have been answered. -/
def State.afterAnswering (s : State) (n : Nat) : State :=
  { s with
    pending := s.pending.drop n
    history := s.history ++ (s.pending.take n).map (answerTo s.cfg) }

@[simp] theorem State.afterAnswering_cfg (s : State) (n : Nat) : (s.afterAnswering n).cfg = s.cfg := rfl

@[simp] theorem State.afterAnswering_pending (s : State) (n : Nat) :
    (s.afterAnswering n).pending = s.pending.drop n := rfl

@[simp] theorem State.afterAnswering_history (s : State) (n : Nat) :
    (s.afterAnswering n).history = s.history ++ (s.pending.take n).map (answerTo s.cfg) := rfl

@[simp] theorem State.afterAnswering_zero (s : State) : s.afterAnswering 0 = s := by
  simp [State.afterAnswering]

theorem State.afterAnswering_of_pending_eq_nil {s : State} (h : s.pending = []) (n : Nat) :
    s.afterAnswering n = s := by
  obtain ⟨cfg, pending, history⟩ := s
  obtain rfl : pending = [] := h
  simp [State.afterAnswering]

theorem State.afterAnswering_afterAnswering (s : State) (n k : Nat) :
    (s.afterAnswering n).afterAnswering k = s.afterAnswering (n + k) := by
  simp [State.afterAnswering, List.take_add, List.append_assoc]

/-- An answered step answers the next command with rule R72's function and changes nothing else. -/
theorem step_eq_afterAnswering {s : State} {cmd : Word} {rest : List Word} (h : s.pending = cmd :: rest) :
    step s = .next (s.afterAnswering 1) := by
  rw [stepIsThePackedReference s cmd rest h, State.afterAnswering, h]
  rfl

theorem pending_ne_nil_of_step_eq_next {s t : State} (h : step s = .next t) : s.pending ≠ [] := by
  obtain ⟨cmd, rest, hp, -⟩ := step_next_cases h
  simp [hp]

/-- Every answered step adds the answer to one pending command to the history, and keeps B. -/
theorem step_next_history {s t : State} (h : step s = .next t) :
    t.cfg = s.cfg ∧ ∃ cmd, t.history = s.history ++ [answerTo s.cfg cmd] := by
  obtain ⟨cmd, rest, hp⟩ := List.exists_cons_of_ne_nil (pending_ne_nil_of_step_eq_next h)
  rw [step_eq_afterAnswering hp] at h
  cases h
  exact ⟨rfl, cmd, by simp [hp]⟩

/-- What holds of every recorded transaction, and of every answer with this B, still holds after a step. -/
theorem forall_history_of_step {p : Transaction → Prop} {s t : State} (h : step s = .next t)
    (hold : ∀ x ∈ s.history, p x) (hnew : ∀ cmd, p (answerTo s.cfg cmd)) : ∀ x ∈ t.history, p x := by
  obtain ⟨-, cmd, hhist⟩ := step_next_history h
  rw [hhist, List.forall_mem_append, List.forall_mem_singleton]
  exact ⟨hold, hnew cmd⟩

/-- Settles O51: the one transaction that a step adds is the answer to its command. -/
theorem stepKeepsResponsesFunctional : Obligations.StepKeepsResponsesFunctional := by
  intro s t hinv h
  obtain ⟨hcfg, -⟩ := step_next_history h
  rw [hcfg]
  exact forall_history_of_step h hinv fun _ => rfl

/-- Settles O52: the history is empty at reset. -/
theorem resetResponsesAreFunctional : Obligations.ResetResponsesAreFunctional := by
  intro x hx
  rw [State.reset_history] at hx
  cases hx

/-- Settles O54: the fields of the reset state, and the step from it with one command presented. -/
theorem resetLeavesNothingButTheConstants : Obligations.ResetLeavesNothingButTheConstants := by
  refine ⟨State.reset_cfg, State.reset_pending, State.reset_history, fun s => rfl, fun cmd => ?_⟩
  have hp : (State.reset.present cmd).pending = [cmd] := State.present_pending State.reset cmd
  exact stepIsThePackedReference _ cmd [] hp

/-- A run answers as many commands as it has steps, as long as commands are pending. -/
theorem run_eq_afterAnswering (s : State) (n : Nat) (h : n ≤ s.pending.length) :
    Sys2Proof.core.run n s = .next (s.afterAnswering n) := by
  induction n generalizing s with
  | zero => rw [State.afterAnswering_zero]; rfl
  | succ n ih =>
    obtain ⟨cmd, rest, hp⟩ :=
      List.exists_cons_of_ne_nil (List.ne_nil_of_length_pos (Nat.lt_of_lt_of_le n.succ_pos h))
    have hn : n ≤ (s.afterAnswering 1).pending.length := by
      rw [State.afterAnswering_pending, List.length_drop]
      omega
    rw [core_run_of_next n (step_eq_afterAnswering hp), ih _ hn, State.afterAnswering_afterAnswering, Nat.add_comm]

/-- A run that outlasts the pending commands by one step faults. -/
theorem run_length_succ_eq_fault (s : State) :
    Sys2Proof.core.run (s.pending.length + 1) s = .fault .noCommand := by
  induction hn : s.pending.length generalizing s with
  | zero => exact core_run_of_fault 0 (step_of_nil s (List.length_eq_zero_iff.1 hn))
  | succ n ih =>
    obtain ⟨cmd, rest, hp⟩ := List.exists_cons_of_length_eq_add_one hn
    rw [core_run_of_next _ (step_eq_afterAnswering hp)]
    exact ih _ (by rw [State.afterAnswering_pending, List.length_drop, hn, Nat.add_sub_cancel])

/-- Settles O55: the run answers every pending command, and then no step is left. -/
theorem runAnswersEachCommandInOrder : Obligations.RunAnswersEachCommandInOrder := by
  refine fun s => ⟨fun n hn => ⟨_, run_eq_afterAnswering s n hn⟩, ?_, run_length_succ_eq_fault s⟩
  rw [run_eq_afterAnswering s _ (Nat.le_refl _), State.afterAnswering, List.drop_length, List.take_length]
  rfl

/-- Settles O56: a step reads neither the history nor the kind of an earlier response. -/
theorem failureLeavesNothingBehind : Obligations.FailureLeavesNothingBehind := by
  intro s t bad rest hp _ h
  have ht := stepIsThePackedReference s bad rest hp
  rw [h] at ht
  cases ht
  refine ⟨rfl, fun cmd more hrest => ?_⟩
  exact ⟨_, _, answerTo s.cfg cmd, stepIsThePackedReference _ cmd more hrest,
    stepIsThePackedReference _ cmd more hrest, rfl, rfl⟩

/-- One step where there is one, and nothing where no command is pending. -/
theorem advance_eq_afterAnswering (s : State) : s.advance = s.afterAnswering 1 := by
  rw [State.advance]
  cases hp : s.pending with
  | nil => rw [step_of_nil s hp, State.afterAnswering_of_pending_eq_nil hp]
  | cons cmd rest => rw [step_eq_afterAnswering hp]

/-- Under a schedule, the block at position `k` answers as many commands as the schedule names it. -/
theorem getElem?_systemRun (instances : List State) (schedule : List Nat) (k : Nat) :
    (systemRun instances schedule)[k]? = instances[k]?.map (·.afterAnswering (schedule.count k)) := by
  induction schedule generalizing instances with
  | nil => cases h : instances[k]? <;> simp [systemRun, h]
  | cons j schedule ih =>
    refine (ih (systemStep instances j)).trans ?_
    rw [systemStep, List.getElem?_modify, List.count_cons]
    by_cases hjk : j = k
    · simp [hjk, advance_eq_afterAnswering, State.afterAnswering_afterAnswering, Function.comp_def, Nat.add_comm]
    · simp [hjk]

theorem length_systemRun (instances : List State) (schedule : List Nat) :
    (systemRun instances schedule).length = instances.length := by
  induction schedule generalizing instances with
  | nil => rfl
  | cons j schedule ih => exact (ih _).trans (List.length_modify _ _ _)

/-- Settles O57: each of the blocks advances by its own count in the schedule. -/
theorem interleavedInstancesDoNotInterfere : Obligations.InterleavedInstancesDoNotInterfere := by
  intro instances schedule k s hs
  refine ⟨length_systemRun instances schedule, ?_⟩
  rw [getElem?_systemRun, hs]
  rfl

/-- A command presented where none is pending is answered by the next step, which leaves none pending. -/
theorem step_present {s : State} (h : s.pending = []) (cmd : Word) :
    step (s.present cmd) = .next { s with history := s.history ++ [answerTo s.cfg cmd] } := by
  have hp : (s.present cmd).pending = [cmd] := by rw [State.present_pending, h, List.nil_append]
  rw [stepIsThePackedReference _ cmd [] hp]
  obtain ⟨cfg, pending, history⟩ := s
  obtain rfl : pending = [] := h
  rfl

/-- Settles O58, by induction on the bound: the host's first command is answered, and the rest is the interaction from
the history that has its transaction. -/
theorem adaptiveHostAlwaysGetsTheStepFunction : Obligations.AdaptiveHostAlwaysGetsTheStepFunction := by
  intro host n
  induction n with
  | zero => exact fun s _ => ⟨[], by simp [interact]⟩
  | succ n ih =>
    intro s hp
    cases hhost : host s.history with
    | none => exact ⟨[], by simp [interact, hhost]⟩
    | some cmd =>
      obtain ⟨cmds, hlen, hrun, hchosen, hend⟩ := ih { s with history := s.history ++ [answerTo s.cfg cmd] } hp
      simp only [List.append_assoc, List.singleton_append] at hrun hchosen hend
      refine ⟨cmd :: cmds, Nat.succ_le_succ hlen, ?_, fun k hk => ?_, fun hlt => hend (Nat.lt_of_succ_lt_succ hlt)⟩
      · rw [interact, hhost]
        simp only [step_present hp]
        exact hrun
      · cases k with
        | zero => simpa using hhost
        | succ k => exact hchosen k (Nat.lt_of_succ_lt_succ hk)

end Sys2Proof.Machine

/-! ### The constant matrices and the packed slices (10_state.md rules R26 to R29, 40_gf2_primitives.md rule R90) -/

namespace Sys2Proof.Machine

open Sys2Proof.Reference

theorem identity12_iff (j i : Fin 12) : identity12 j i = true ↔ j = i := by
  rw [identity12, decide_eq_true_iff, eq_comm]

/-- Settles O21: G and H by their column and row ranges; the printed rows are computed. -/
theorem constantMatricesAreAsStated : Obligations.ConstantMatricesAreAsStated := by
  refine ⟨identity12_iff, fun cfg j i => ⟨fun _ => ?_, fun _ => ?_⟩, fun cfg j i => ⟨fun _ => ?_, fun _ => ?_⟩,
    by decide +kernel, by decide +kernel⟩
  · exact matG_low cfg j i (by omega)
  · exact matG_high cfg j i (by omega)
  · exact matH_low cfg j i (by omega)
  · exact matH_high cfg j i (by omega)

/-- Settles O22: every clause is about the 144 bits of one matrix, and is computed. -/
theorem defaultMatrixHasItsStatedStructure : Obligations.DefaultMatrixHasItsStatedStructure := by
  unfold Obligations.DefaultMatrixHasItsStatedStructure
  decide +kernel

theorem toNat_low (x : Vec24) : (Gf2.low x).toNat = x.toNat % 2 ^ 12 := by
  rw [Gf2.low, toNat_extractLsb'_eq_div_mod, Nat.pow_zero, Nat.div_one]

theorem toNat_high (x : Vec24) : (Gf2.high x).toNat = x.toNat / 2 ^ 12 := by
  rw [Gf2.high, toNat_extractLsb'_eq_div_mod]
  omega

/-- Settles O28: one lemma for each form. -/
theorem slicesOnPackedValues : Obligations.SlicesOnPackedValues := by
  refine ⟨fun n m a b => ?_, fun x => ⟨toNat_low x, toNat_high x⟩, toNat_unit, fun n => BitVec.toNat_zero⟩
  rw [toNat_cat, Nat.add_comm, Nat.mul_comm]

end Sys2Proof.Machine

/-! ### The 23-bit code and its extension (41_encoder.md rule R102, 10_state.md rule R34) -/

namespace Sys2Proof.Machine

open Sys2Proof.Reference

/-- Columns 0 to 11 of G are I12: the codeword starts with its message. -/
theorem getLsbD_encode_low (cfg : Config) (m : Vec12) (i : Fin 12) :
    (Golay.encode cfg m).getLsbD i = m.getLsb i := by
  refine (getLsbD_extCodeword cfg m (i.castLE (by omega))).symm.trans ?_
  rw [extCodeword, Gf2.getLsbD_cat]
  exact if_pos i.isLt

/-- Columns 12 to 22 of G are columns 0 to 10 of B. -/
theorem getLsbD_encode_high (cfg : Config) (m : Vec12) {i : Nat} (h : i ≤ 10) :
    (Golay.encode cfg m).getLsbD (12 + i) = (Gf2.vecmat m (matB cfg)).getLsbD i := by
  refine (getLsbD_extCodeword cfg m ⟨12 + i, by omega⟩).symm.trans ?_
  rw [extCodeword, Gf2.getLsbD_cat, if_neg (by simp), Nat.add_sub_cancel_left]

theorem golayEncode_injective (cfg : Config) : Function.Injective (Golay.encode cfg) := by
  intro m m' h
  refine Gf2.ext fun i => ?_
  exact (getLsbD_encode_low cfg m i).symm.trans ((congrArg (·.getLsbD i) h).trans (getLsbD_encode_low cfg m' i))

theorem golayEncode_xor (cfg : Config) (a b : Vec12) :
    Golay.encode cfg (a ^^^ b) = Golay.encode cfg a ^^^ Golay.encode cfg b := Gf2.vecmat_xorWith a b _

/-- Settles O32: the codeword by columns of G, and the laws of the product. -/
theorem encodeIsSystematicAndLinear : Obligations.EncodeIsSystematicAndLinear :=
  fun cfg => ⟨fun m => ⟨getLsbD_encode_low cfg m, fun _ => getLsbD_encode_high cfg m⟩, golayEncode_injective cfg,
    Gf2.vecmat_zeros _, fun j => Gf2.vecmat_unit j _, golayEncode_xor cfg⟩

theorem Gf2.cat_injective {n m : Nat} {a a' : BitVec n} {b b' : BitVec m} (h : Gf2.cat a b = Gf2.cat a' b') :
    a = a' ∧ b = b' := by
  have hval := congrArg BitVec.toNat h
  rw [toNat_cat, toNat_cat] at hval
  have hmod := congrArg (· % 2 ^ n) hval
  have hdiv := congrArg (· / 2 ^ n) hval
  simp only [Nat.mul_add_mod, Nat.mod_eq_of_lt a.isLt, Nat.mod_eq_of_lt a'.isLt] at hmod
  simp only [Nat.mul_add_div (Nat.two_pow_pos n), Nat.div_eq_of_lt a.isLt, Nat.div_eq_of_lt a'.isLt] at hdiv
  exact ⟨BitVec.eq_of_toNat_eq hmod, BitVec.eq_of_toNat_eq hdiv⟩

/-- Two extended codewords differ in at most one bit more than the codewords. -/
theorem wt_extCodeword_xor_le (cfg : Config) (m m' : Vec12) :
    Gf2.wt (extCodeword cfg m ^^^ extCodeword cfg m') ≤ Gf2.wt (Golay.encode cfg m ^^^ Golay.encode cfg m') + 1 := by
  obtain ⟨p, hp⟩ := extCodeword_eq_cat_encode cfg m
  obtain ⟨p', hp'⟩ := extCodeword_eq_cat_encode cfg m'
  have hlast := Gf2.wt_le (p ^^^ p')
  rw [hp, hp', Gf2.cat_xor_cat, Gf2.wt_cat]
  omega

/-! With `B × B = I12` alone (42_syndrome.md rules R112 and R113). -/

section
variable {cfg : Config} (hinv : ∀ j i, oddMany (fun k => matB cfg j k && matB cfg k i) = identity12 j i)
include hinv

theorem syn2_syn2_of_involution (s : Vec12) : Golay.syn2 cfg (Golay.syn2 cfg s) = s := by
  have hprod : (fun j i => Gf2.xorSum 12 fun k => matB cfg j k && matB cfg k i) = identity12 :=
    funext₂ fun j i => (Gf2.xorSum_eq_oddMany 12 _).trans (hinv j i)
  rw [Golay.syn2, Golay.syn2, Gf2.vecmat_vecmat, hprod, Gf2.vecmat_identity12]

theorem syndrome_extCodeword_of_involution (m : Vec12) : Golay.syndrome cfg (extCodeword cfg m) = 0#12 := by
  refine (Golay.syndrome_cat cfg m (Golay.syn2 cfg m)).trans ?_
  rw [syn2_syn2_of_involution hinv, BitVec.xor_self]

theorem syndrome_eq_zero_iff_of_involution (w : Vec24) :
    Golay.syndrome cfg w = 0#12 ↔ w = extCodeword cfg (Gf2.low w) := by
  constructor
  · intro hw
    rw [← Gf2.cat_low_high w, Golay.syndrome_cat, BitVec.xor_eq_zero_iff] at hw
    have hhigh : Gf2.high w = Golay.syn2 cfg (Gf2.low w) := by rw [hw, syn2_syn2_of_involution hinv]
    exact (Gf2.cat_low_high w).symm.trans (congrArg (Gf2.cat (Gf2.low w)) hhigh)
  · intro hw
    rw [hw, syndrome_extCodeword_of_involution hinv]

end

/-! With the whole of requirement R34. -/

section
variable {cfg : Config} (h34 : meetsR34 cfg)
include h34

theorem seven_le_wt_encode_xor {m m' : Vec12} (h : m ≠ m') :
    7 ≤ Gf2.wt (Golay.encode cfg m ^^^ Golay.encode cfg m') := by
  have hdist : 8 ≤ Gf2.wt (extCodeword cfg m ^^^ extCodeword cfg m') := meetsR34_distance h34 h
  have hle := wt_extCodeword_xor_le cfg m m'
  omega

/-- The last bit of `[m | m × B]` makes its weight even, so it is the bit that `evenExtend` appends. -/
theorem evenExtend_encode (m : Vec12) : evenExtend (Golay.encode cfg m) = extCodeword cfg m := by
  obtain ⟨p, hp⟩ := extCodeword_eq_cat_encode cfg m
  have heven := meetsR34_even h34 m
  rw [hp, Gf2.wt_cat] at heven
  rw [hp, evenExtend]
  congr 1
  have hbit : ∀ q : BitVec 1, q = BitVec.ofBool (decide (Gf2.wt q = 1)) ∧ Gf2.wt q ≤ 1 := by decide
  obtain ⟨hq, hle⟩ := hbit p
  rw [hq]
  exact congrArg BitVec.ofBool (decide_eq_decide.2 (by omega))

theorem oddMany_involution (j i : Fin 12) : oddMany (fun k => matB cfg j k && matB cfg k i) = identity12 j i :=
  (Gf2.xorSum_eq_oddMany 12 _).symm.trans (meetsR34_involution h34 j i)

theorem syndrome_extCodeword (m : Vec12) : Golay.syndrome cfg (extCodeword cfg m) = 0#12 :=
  syndrome_extCodeword_of_involution (oddMany_involution h34) m

/-- The product with B keeps the parity of a weight, because the weight of `[v | v × B]` is even. -/
theorem wt_syn2_mod_two (v : Vec12) : Gf2.wt (Golay.syn2 cfg v) % 2 = Gf2.wt v % 2 := by
  have heven : Gf2.wt (Gf2.cat v (Golay.syn2 cfg v)) % 2 = 0 := meetsR34_even h34 v
  rw [Gf2.wt_cat] at heven
  omega

theorem wt_syndrome_mod_two (w : Vec24) : Gf2.wt (Golay.syndrome cfg w) % 2 = Gf2.wt w % 2 := by
  have hhigh := wt_syn2_mod_two h34 (Gf2.high w)
  have hsum := Gf2.wt_xor_add_two_mul_wt_and (Gf2.low w) (Golay.syn2 cfg (Gf2.high w))
  rw [← Gf2.cat_low_high w, Golay.syndrome_cat, Gf2.wt_cat]
  omega

end

/-- Settles O33: the even-parity extension of a codeword is the extended codeword, whose syndrome is zero. -/
theorem extendedCodewordHasZeroSyndrome : Obligations.ExtendedCodewordHasZeroSyndrome := by
  intro cfg m h34
  rw [evenExtend_encode h34]
  exact ⟨rfl, syndrome_extCodeword h34 m⟩

/-- Settles O38: a vector of syndrome zero is `[m | m × B]`, which is a codeword with one bit appended. -/
theorem synOfEvenExtensionChecksACodeword : Obligations.SynOfEvenExtensionChecksACodeword := by
  intro cfg x h34
  constructor
  · intro hsyn
    have hcode := eq_extCodeword_of_syndrome_eq_zero h34 hsyn
    obtain ⟨p, hp⟩ := extCodeword_eq_cat_encode cfg (Gf2.low (evenExtend x))
    exact ⟨_, (Gf2.cat_injective (hcode.trans hp)).1.symm⟩
  · rintro ⟨m, rfl⟩
    rw [evenExtend_encode h34, syndrome_extCodeword h34]

/-- Settles O40: the product with H keeps the parity of a weight, and the extended vector's is odd. -/
theorem decoderSyndromeHasOddWeight : Obligations.DecoderSyndromeHasOddWeight := by
  intro r
  have hodd : Gf2.wt (Golay.syndrome defaultConfig (Golay.extend r)) % 2 = 1 :=
    (wt_syndrome_mod_two meetsR34_default _).trans (wt_extend_odd r)
  refine ⟨Gf2.get_vecmat_eq_oddMany _ (matH defaultConfig), hodd, fun h0 => ?_⟩
  rw [h0] at hodd
  exact absurd hodd (by decide)

/-- Settles O36: bit by bit it is the product with B, which is its own inverse; the examples are computed. -/
theorem secondSyndromeIsTheProductWithB : Obligations.SecondSyndromeIsTheProductWithB := by
  refine ⟨fun cfg s => Gf2.get_vecmat_eq_oddMany s (matB cfg),
    fun cfg hinv => ⟨syn2_syn2_of_involution hinv, fun k => ⟨?_, Golay.syn2_unit cfg k⟩⟩, by decide +kernel⟩
  rw [← Golay.syn2_unit, syn2_syn2_of_involution hinv]

/-- Settles O37: by linearity only the error counts, since a codeword has syndrome zero. -/
theorem syndromeIsThatOfTheErrorAlone : Obligations.SyndromeIsThatOfTheErrorAlone := by
  refine fun cfg => ⟨Golay.syndrome_xor cfg, fun hinv => ⟨syndrome_eq_zero_iff_of_involution hinv, fun m e => ?_,
    fun lo hi => ⟨Golay.syndrome_cat cfg lo hi, ?_⟩⟩⟩
  · rw [Golay.syndrome_xor, syndrome_extCodeword_of_involution hinv, BitVec.zero_xor]
  · rw [Golay.syndrome_cat, Golay.syn2_xor, syn2_syn2_of_involution hinv]
    rfl

end Sys2Proof.Machine

/-! ### Error correction (43_decoder.md rules R133 and R134) -/

namespace Sys2Proof.Machine

open Sys2Proof.Reference

/-! The message by the case that located the error (rule R133). -/

theorem low_extend (r : Vec23) : Gf2.low (Golay.extend r) = r.extractLsb' 0 12 := by
  refine BitVec.eq_of_toNat_eq ?_
  rw [toNat_low, Golay.extend, toNat_cat, toNat_extractLsb'_eq_div_mod]
  omega

/-- Only the low half of the pattern reaches the message. -/
theorem Golay.correct_extend (r : Vec23) (u : Vec24) :
    Golay.correct (Golay.extend r) u = r.extractLsb' 0 12 ^^^ Gf2.low u := by
  rw [Golay.correct, Gf2.low_xorWith, low_extend, Gf2.xorWith]

/-- Settles O44: the low half of the located pattern is that of its stage. -/
theorem messageByCase : Obligations.MessageByCase := by
  intro cfg r l s hl
  have hdec := Golay.decode_of_locate_eq_some hl
  rw [Golay.correct_extend] at hdec
  refine ⟨hdec, ?_⟩
  obtain ⟨stage, u⟩ := l
  obtain ⟨-, hu⟩ := Golay.locate_eq_some_iff.1 hl
  obtain rfl : u = stage.pattern cfg s := hu
  cases stage with
  | a => rwa [Stage.pattern, low_patternA] at hdec
  | b k => rwa [Stage.pattern, low_patternB, Gf2.xorWith, ← BitVec.xor_assoc] at hdec
  | c1 => rwa [Stage.pattern, low_patternC1, Gf2.zeros, BitVec.xor_zero] at hdec
  | c2 k =>
    rw [Stage.pattern, low_patternC2] at hdec
    refine ⟨_, hdec, fun i => (Gf2.get_xorWith _ _ i).trans ?_⟩
    rw [Gf2.get_unit, ← low_extend, Gf2.get_low]
    exact congrArg (· ^^ decide (i = k)) ((getLsbD_extend r i).trans (if_pos (by omega)))

theorem xor_xor_cancel_left {n : Nat} (a b : BitVec n) : a ^^^ (a ^^^ b) = b := by
  rw [← BitVec.xor_assoc, BitVec.xor_self, BitVec.zero_xor]

/-! The places of a light error (rules R123 to R126). -/

theorem Gf2.wt_eq_zero_iff {n : Nat} (v : BitVec n) : Gf2.wt v = 0 ↔ v = Gf2.zeros n := by
  refine ⟨fun h => Gf2.ext fun i => ?_, fun h => by rw [h, Gf2.wt_zeros]⟩
  rw [Gf2.wt_eq_card, Finset.card_eq_zero, Finset.filter_eq_empty_iff] at h
  rw [Gf2.get_zeros]
  exact Bool.eq_false_iff.2 (h (Finset.mem_univ i))

theorem Gf2.exists_eq_unit_of_wt_eq_one {v : Vec12} (h : Gf2.wt v = 1) : ∃ k, v = Gf2.unit k := by
  rw [Gf2.wt_eq_card, Finset.card_eq_one] at h
  obtain ⟨k, hk⟩ := h
  refine ⟨k, Gf2.ext fun i => ?_⟩
  have hi : v.getLsb i = true ↔ i = k := by simpa using Finset.ext_iff.1 hk i
  rw [Gf2.get_unit, Bool.eq_iff_iff, decide_eq_true_iff]
  exact hi

/-- The weights of the two halves of the errors that a stage locates. -/
def Stage.Takes (lo hi : Nat) : Stage → Prop
  | .a => hi = 0
  | .b _ => hi = 1
  | .c1 => 2 ≤ hi ∧ lo = 0
  | .c2 _ => 2 ≤ hi ∧ lo = 1

section
variable {cfg : Config} (h34 : meetsR34 cfg)
include h34

/-- The locator finds every error of weight at most 3: when three bits are spread over the two halves, one half holds
at most one of them. -/
theorem Golay.exists_locate_syndrome_cat {lo hi : Vec12} (hw : Gf2.wt lo + Gf2.wt hi ≤ 3) :
    ∃ st : Stage, st.Takes (Gf2.wt lo) (Gf2.wt hi) ∧
      Golay.locate cfg (Golay.syndrome cfg (Gf2.cat lo hi)) = some { stage := st, u := Gf2.cat lo hi } := by
  obtain ⟨-, hplace⟩ := locatorFindsTheErrorByWhereItLies
  obtain ⟨hA, hB, hC1, hC2⟩ := hplace cfg lo hi h34 hw
  obtain h0 | h1 | h2 : Gf2.wt hi = 0 ∨ Gf2.wt hi = 1 ∨ 2 ≤ Gf2.wt hi := by omega
  · exact ⟨.a, h0, hA ((Gf2.wt_eq_zero_iff _).1 h0)⟩
  · obtain ⟨k, hk⟩ := Gf2.exists_eq_unit_of_wt_eq_one h1
    exact ⟨.b k, h1, hB k hk⟩
  · obtain h0 | h1 : Gf2.wt lo = 0 ∨ Gf2.wt lo = 1 := by omega
    · exact ⟨.c1, ⟨h2, h0⟩, hC1 h2 ((Gf2.wt_eq_zero_iff _).1 h0)⟩
    · obtain ⟨k, hk⟩ := Gf2.exists_eq_unit_of_wt_eq_one h1
      exact ⟨.c2 k, ⟨h2, h1⟩, hC2 k h2 hk⟩

theorem Golay.exists_locate_syndrome_eq {e : Vec24} (hw : Gf2.wt e ≤ 3) :
    ∃ st, Golay.locate cfg (Golay.syndrome cfg e) = some { stage := st, u := e } := by
  rw [← Gf2.cat_low_high e] at hw ⊢
  rw [Gf2.wt_cat] at hw
  obtain ⟨st, -, hloc⟩ := Golay.exists_locate_syndrome_cat h34 hw
  exact ⟨st, hloc⟩

/-- A corrupted extended codeword has the syndrome of its error. -/
theorem syndrome_extCodeword_xor (m : Vec12) (e : Vec24) :
    Golay.syndrome cfg (extCodeword cfg m ^^^ e) = Golay.syndrome cfg e := by
  rw [Golay.syndrome_xor, syndrome_extCodeword h34, BitVec.zero_xor]

/-- A received vector within distance 3 of a codeword is decoded to the message of that codeword: with the appended bit
it is still within distance 3 of the extended codeword, and the locator finds the difference. -/
theorem Golay.decode_of_wt_encode_xor_le {m : Vec12} {r : Vec23} (h : Gf2.wt (Golay.encode cfg m ^^^ r) ≤ 3) :
    Golay.decode cfg r = .ok m := by
  obtain ⟨-, hext, -, -⟩ := extensionHasOddWeight
  have hwt := hext cfg m (Golay.encode cfg m ^^^ r) h34
  rw [xor_xor_cancel_left, BitVec.xor_comm (Golay.extend r)] at hwt
  obtain ⟨st, hloc⟩ := Golay.exists_locate_syndrome_eq h34 (e := extCodeword cfg m ^^^ Golay.extend r)
    (by split at hwt <;> omega)
  rw [syndrome_extCodeword_xor h34] at hloc
  rw [Golay.decode_of_locate_eq_some hloc, Golay.correct, Gf2.xorWith, BitVec.xor_comm, BitVec.xor_assoc,
    BitVec.xor_self, BitVec.xor_zero, low_extCodeword]

end

/-- Settles O46: the channel keeps the received vector within distance 3 of the codeword. -/
theorem upToThreeErrorsAreCorrected : Obligations.UpToThreeErrorsAreCorrected := by
  intro cfg m e h34 he
  refine Golay.decode_of_wt_encode_xor_le h34 ?_
  rwa [channel, Gf2.xorWith, xor_xor_cancel_left]

/-- `DEC` appends the opposite bit to the even-parity one (rule R121). -/
theorem extend_eq_evenExtend_xor (r : Vec23) : Golay.extend r = evenExtend r ^^^ 0x800000#24 := by
  have hlast : (0x800000#24 : Vec24) = Gf2.cat 0#23 1#1 := rfl
  rw [Golay.extend, evenExtend, hlast, Gf2.cat_xor_cat, BitVec.xor_zero, appendedBit]
  rcases Nat.mod_two_eq_zero_or_one (Gf2.wt r) with h | h <;> rw [h] <;> rfl

/-- Settles O45: an unharmed codeword arrives with the appended bit wrong and nothing else, an error that case B finds
at row 11. -/
theorem roundTripTakesCaseBRowEleven : Obligations.RoundTripTakesCaseBRowEleven := by
  intro cfg m h34
  constructor
  · refine Golay.decode_of_wt_encode_xor_le h34 ?_
    rw [BitVec.xor_self]
    decide
  · obtain ⟨-, hplace⟩ := locatorFindsTheErrorByWhereItLies
    obtain ⟨-, hB, -, -⟩ := hplace cfg (Gf2.zeros 12) (Gf2.unit 11) h34 (by decide)
    have hlast : (0x800000#24 : Vec24) = Gf2.cat (Gf2.zeros 12) (Gf2.unit 11) := by decide
    rw [extend_eq_evenExtend_xor, evenExtend_encode h34, syndrome_extCodeword_xor h34, hlast]
    exact hB 11 rfl

/-! The code is perfect: the balls of radius 3 about the codewords fill the space of received vectors. -/

/-- The indices of the true bits of a vector. -/
def Gf2.support {n : Nat} (v : BitVec n) : Finset (Fin n) := Finset.univ.filter fun i => Gf2.get v i = true

@[simp] theorem Gf2.mem_support {n : Nat} {v : BitVec n} {i : Fin n} : i ∈ Gf2.support v ↔ Gf2.get v i = true := by
  simp [Gf2.support]

theorem Gf2.card_support {n : Nat} (v : BitVec n) : (Gf2.support v).card = Gf2.wt v := (Gf2.wt_eq_card v).symm

theorem Gf2.support_injective {n : Nat} : Function.Injective (Gf2.support (n := n)) := by
  intro a b hab
  refine Gf2.ext fun i => ?_
  rw [Bool.eq_iff_iff, ← Gf2.mem_support, ← Gf2.mem_support, hab]

theorem Gf2.exists_support_eq {n : Nat} (S : Finset (Fin n)) : ∃ v, Gf2.support v = S :=
  ⟨Gf2.ofBits n fun i => decide (i ∈ S), by ext i; simp⟩

/-- The number of vectors of a given weight is a binomial coefficient: such a vector is a choice of its true bits. -/
theorem Gf2.card_wt_eq (n k : Nat) : (Finset.univ.filter fun v : BitVec n => Gf2.wt v = k).card = n.choose k := by
  have himage : (Finset.univ.filter fun v : BitVec n => Gf2.wt v = k).image Gf2.support =
      Finset.univ.powersetCard k := by
    ext S
    obtain ⟨v, rfl⟩ := Gf2.exists_support_eq S
    simp [Gf2.support_injective.eq_iff, Gf2.card_support]
  rw [← Finset.card_image_of_injective _ Gf2.support_injective, himage, Finset.card_powersetCard, Finset.card_univ,
    Fintype.card_fin]

/-- The vectors of weight at most `d`. -/
def ball (n d : Nat) : Finset (BitVec n) := Finset.univ.filter fun v => Gf2.wt v ≤ d

@[simp] theorem mem_ball {n d : Nat} {v : BitVec n} : v ∈ ball n d ↔ Gf2.wt v ≤ d := by
  simp [ball]

theorem card_ball (n d : Nat) : (ball n d).card = ∑ k ∈ Finset.range (d + 1), n.choose k := by
  rw [Finset.card_eq_sum_card_fiberwise (f := Gf2.wt) (t := Finset.range (d + 1))
    fun v hv => by simpa [Nat.lt_succ_iff] using hv]
  refine Finset.sum_congr rfl fun k hk => ?_
  rw [← Gf2.card_wt_eq]
  congr 1
  ext v
  simp only [Finset.mem_filter, mem_ball, Finset.mem_univ, true_and, Finset.mem_range] at hk ⊢
  omega

theorem natCard_bitVec (n : Nat) : Nat.card (BitVec n) = 2 ^ n := by
  rw [Nat.card_eq_fintype_card, ← FinEnum.card_eq_fintypeCard, FinEnum.card_bitVec]

/-- An error that the code corrects. -/
abbrev LightError := { e : Vec23 // Gf2.wt e ≤ 3 }

theorem natCard_lightError : Nat.card LightError = 2 ^ 11 := by
  have hball : (ball 23 3).card = 2 ^ 11 := (card_ball 23 3).trans (by decide)
  rw [Nat.subtype_card (ball 23 3) fun _ => mem_ball, hball]

/-- What is received of a message with such an error. -/
def received (cfg : Config) (x : Vec12 × LightError) : Vec23 := channel (Golay.encode cfg x.1) x.2

theorem encode_xor_received (cfg : Config) (x : Vec12 × LightError) :
    Golay.encode cfg x.1 ^^^ received cfg x = x.2 := xor_xor_cancel_left _ _

section
variable {cfg : Config} (h34 : meetsR34 cfg)
include h34

/-- Two codewords within distance 3 of one received vector are the same. -/
theorem eq_of_wt_encode_xor_le {m m' : Vec12} {r : Vec23} (h : Gf2.wt (Golay.encode cfg m ^^^ r) ≤ 3)
    (h' : Gf2.wt (Golay.encode cfg m' ^^^ r) ≤ 3) : m = m' := by
  have hdec := Golay.decode_of_wt_encode_xor_le h34 h
  rw [Golay.decode_of_wt_encode_xor_le h34 h'] at hdec
  exact (OpOutcome.ok.inj hdec).symm

theorem received_injective : Function.Injective (received cfg) := by
  intro x y hxy
  have hmsg : x.1 = y.1 := by
    refine eq_of_wt_encode_xor_le h34 (r := received cfg x) ?_ ?_
    · rw [encode_xor_received]
      exact x.2.2
    · rw [hxy, encode_xor_received]
      exact y.2.2
  refine Prod.ext hmsg (Subtype.ext ?_)
  rw [← encode_xor_received cfg x, ← encode_xor_received cfg y, hmsg, hxy]

/-- Every received vector is within distance 3 of a codeword: there are `2 ^ 12` messages with `2 ^ 11` errors each, no
two of which are received alike, and `2 ^ 23` vectors to receive. -/
theorem exists_wt_encode_xor_le (r : Vec23) : ∃ m, Gf2.wt (Golay.encode cfg m ^^^ r) ≤ 3 := by
  have hcard : Nat.card Vec23 ≤ Nat.card (Vec12 × LightError) := by
    rw [Nat.card_prod, natCard_bitVec, natCard_bitVec, natCard_lightError, ← Nat.pow_add]
  obtain ⟨x, rfl⟩ := ((received_injective h34).bijective_of_nat_card_le hcard).surjective r
  refine ⟨x.1, ?_⟩
  rw [encode_xor_received]
  exact x.2.2

/-- `decode` gives the message of the one codeword within distance 3. -/
theorem Golay.exists_decode_eq_ok (r : Vec23) :
    ∃ m, Golay.decode cfg r = .ok m ∧ Gf2.wt (Golay.encode cfg m ^^^ r) ≤ 3 := by
  obtain ⟨m, hm⟩ := exists_wt_encode_xor_le h34 r
  exact ⟨m, Golay.decode_of_wt_encode_xor_le h34 hm, hm⟩

end

/-- Settles O47: some codeword is within distance 3, and that is the one decoded to. -/
theorem perfectCodeNeverFailsToDecode : Obligations.PerfectCodeNeverFailsToDecode :=
  fun _ r h34 => Golay.exists_decode_eq_ok h34 r

/-- Settles O20: `DEC` records the message that `decode` finds, and there is one such message. -/
theorem decDefaultAlwaysGivesTheNearestCodeword : Obligations.DecDefaultAlwaysGivesTheNearestCodeword := by
  intro s r hcfg
  have h34 : meetsR34 s.cfg := hcfg ▸ meetsR34_default
  obtain ⟨m, hdec, hm⟩ := Golay.exists_decode_eq_ok h34 r
  exact ⟨m, exec_dec_of_decode_eq_ok hdec, hm, fun m' hm' => eq_of_wt_encode_xor_le h34 hm' hm⟩

/-- Settles O48: `decode` answers a codeword within distance 3, and the one that was sent is farther away. -/
theorem fourOrMoreErrorsGiveAWrongMessage : Obligations.FourOrMoreErrorsGiveAWrongMessage := by
  intro m e he
  obtain ⟨m', hdec, hm'⟩ :=
    Golay.exists_decode_eq_ok meetsR34_default (channel (Golay.encode defaultConfig m) e)
  refine ⟨m', hdec, ?_⟩
  rintro rfl
  rw [channel, Gf2.xorWith, xor_xor_cancel_left] at hm'
  omega

/-- With a B that meets R34 the responses are a value, or the word of one of two failures. -/
theorem respond_cases_of_meetsR34 {cfg : Config} (h34 : meetsR34 cfg) (cmd : Word) :
    (respond cfg cmd).toNat / 2 ^ 24 = 0 ∨ respond cfg cmd = 0x01000000#32 ∨ respond cfg cmd = 0x04000000#32 := by
  cases hd : decode cmd with
  | error e =>
    rw [respond, hd]
    exact .inr (.inr rfl)
  | ok i =>
    rw [respond_of_decode hd]
    obtain ⟨v, h⟩ | ⟨h, -⟩ | ⟨h, r, rfl⟩ := outcomeOf_cases cfg i
    · rw [h]
      exact .inl (status_okWord v)
    · rw [h]
      exact .inr (.inl rfl)
    · obtain ⟨m, hm, -⟩ := Golay.exists_decode_eq_ok h34 r
      rw [outcomeOf_dec_zero, hm] at h
      cases h

/-- Settles O53: the transaction that a step adds has one of those responses. -/
theorem stepKeepsDefaultStatuses : Obligations.StepKeepsDefaultStatuses := by
  rintro s t ⟨hcfg, hinv⟩ h
  obtain ⟨hkeep, -⟩ := step_next_history h
  refine ⟨hkeep.trans hcfg, forall_history_of_step h hinv fun cmd => ?_⟩
  rw [answerTo, ← respond_eq_wordStep, hcfg]
  exact respond_cases_of_meetsR34 meetsR34_default cmd

end Sys2Proof.Machine

/-! ### Counting syndromes by the errors they locate (43_decoder.md rule R134 (e) and (f), 90_conflicts.md C9) -/

namespace Sys2Proof.Machine

open Sys2Proof.Reference

/-- Counting packed values is counting the vectors they pack. -/
theorem countP_range_ofNat (n : Nat) (p : BitVec n → Bool) :
    (List.range (2 ^ n)).countP (fun x => p (BitVec.ofNat n x)) = Nat.card { v : BitVec n // p v = true } := by
  have hval : ∀ i : Fin (2 ^ n), BitVec.ofNat n i = BitVec.ofFin i := fun i =>
    BitVec.eq_of_toNat_eq (by simp)
  calc (List.range (2 ^ n)).countP (fun x => p (BitVec.ofNat n x))
      = (List.finRange (2 ^ n)).countP (fun i => p (BitVec.ofFin i)) := by
        rw [← List.map_coe_finRange_eq_range, List.countP_map]
        simp only [Function.comp_def, hval]
    _ = (Finset.univ.filter fun i : Fin (2 ^ n) => p (BitVec.ofFin i) = true).card := by
        rw [← List.toFinset_finRange, (List.nodup_finRange _).card_eq_countP]
        simp only [Bool.decide_eq_true]
    _ = Nat.card { i : Fin (2 ^ n) // p (BitVec.ofFin i) = true } := by
        rw [Nat.card_eq_fintype_card, Fintype.card_subtype]
    _ = Nat.card { v : BitVec n // p v = true } :=
        (Nat.card_congr ((BitVec.equivFin (m := n)).toEquiv.subtypeEquiv fun v => Iff.rfl)).symm

/-- The number of pairs of `n`-bit vectors whose weights satisfy `q`. -/
def pairCount (n : Nat) (q : Nat → Nat → Prop) [DecidableRel q] : Nat :=
  ∑ c ∈ (Finset.range (n + 1) ×ˢ Finset.range (n + 1)).filter fun c => q c.1 c.2, n.choose c.1 * n.choose c.2

theorem natCard_pairs (n : Nat) (q : Nat → Nat → Prop) [DecidableRel q] :
    Nat.card { x : BitVec n × BitVec n // q (Gf2.wt x.1) (Gf2.wt x.2) } = pairCount n q := by
  rw [Nat.card_eq_fintype_card, Fintype.card_subtype, pairCount,
    Finset.card_eq_sum_card_fiberwise (f := fun x => (Gf2.wt x.1, Gf2.wt x.2))
      (t := (Finset.range (n + 1) ×ˢ Finset.range (n + 1)).filter fun c => q c.1 c.2)
      fun x hx => by simpa [Nat.lt_succ_iff, Gf2.wt_le] using hx]
  refine Finset.sum_congr rfl fun c hc => ?_
  rw [← Gf2.card_wt_eq, ← Gf2.card_wt_eq, ← Finset.card_product]
  congr 1
  ext x
  simp only [Finset.mem_filter, Finset.mem_product, Finset.mem_univ, true_and, Prod.ext_iff] at hc ⊢
  refine and_iff_right_of_imp ?_
  rintro ⟨h1, h2⟩
  rw [h1, h2]
  exact hc.2

/-- The number of errors of weight at most 3 whose halves' weights satisfy `q`. -/
def lightErrorCount (q : Nat → Nat → Prop) [DecidableRel q] : Nat :=
  pairCount 12 fun lo hi => lo + hi ≤ 3 ∧ q lo hi

section
variable {cfg : Config} (h34 : meetsR34 cfg)
include h34

/-- Errors of weight at most 3 and their syndromes correspond one to one, so the syndromes of a kind that only those
errors have are counted by counting the errors. -/
theorem countP_syndromes_eq_lightErrorCount (good : Vec12 → Bool) (q : Nat → Nat → Prop) [DecidableRel q]
    (hlight : ∀ lo hi : Vec12, Gf2.wt lo + Gf2.wt hi ≤ 3 →
      (good (Golay.syndrome cfg (Gf2.cat lo hi)) = true ↔ q (Gf2.wt lo) (Gf2.wt hi)))
    (hgood : ∀ s, good s = true → ∃ e : Vec24, Gf2.wt e ≤ 3 ∧ Golay.syndrome cfg e = s) :
    (List.range 4096).countP (fun s => good (BitVec.ofNat 12 s)) = lightErrorCount q := by
  refine (countP_range_ofNat 12 good).trans ?_
  rw [lightErrorCount, ← natCard_pairs]
  refine (Nat.card_eq_of_bijective
    (fun x => ⟨Golay.syndrome cfg (Gf2.cat x.1.1 x.1.2), (hlight _ _ x.2.1).2 x.2.2⟩) ⟨?_, ?_⟩).symm
  · intro ⟨x, hx, _⟩ ⟨y, hy, _⟩ hxy
    have hcat := eq_of_syndrome_eq h34 (Subtype.ext_iff.1 hxy) ((Gf2.wt_cat _ _).trans_le hx)
      ((Gf2.wt_cat _ _).trans_le hy)
    exact Subtype.ext (Prod.ext_iff.2 (Gf2.cat_injective hcat))
  · rintro ⟨s, hs⟩
    obtain ⟨e, he, rfl⟩ := hgood s hs
    rw [← Gf2.cat_low_high e, Gf2.wt_cat] at he
    rw [← Gf2.cat_low_high e] at hs
    refine ⟨⟨(Gf2.low e, Gf2.high e), he, (hlight _ _ he).1 hs⟩, Subtype.ext ?_⟩
    exact congrArg (Golay.syndrome cfg) (Gf2.cat_low_high e)

/-- The syndromes located by stages of a kind are those of the errors that these stages take. -/
theorem countLocated_eq_lightErrorCount (kind : Option Located → Bool) (q : Nat → Nat → Prop) [DecidableRel q]
    (hkind : ∀ (st : Stage) (u : Vec24) (lo hi : Nat), st.Takes lo hi →
      (kind (some { stage := st, u := u }) = true ↔ q lo hi))
    (hnone : kind none = false) : countLocated cfg kind = lightErrorCount q := by
  refine countP_syndromes_eq_lightErrorCount h34 (fun s => kind (Golay.locate cfg s)) q (fun lo hi hw => ?_)
    fun s hs => ?_
  · obtain ⟨st, htakes, hloc⟩ := Golay.exists_locate_syndrome_cat h34 hw
    rw [hloc]
    exact hkind st _ _ _ htakes
  · cases hloc : Golay.locate cfg s with
    | none =>
      rw [hloc, hnone] at hs
      cases hs
    | some l =>
      obtain ⟨⟨hle, -⟩, -⟩ := Golay.locate_eq_some_iff.1 hloc
      exact ⟨_, hle, Golay.syndrome_pattern h34 s l.stage⟩

/-- A syndrome of odd weight is that of its own bits, received with zeros after them, and `decode` fails on no received
vector. -/
theorem isSome_locate_of_odd {s : Vec12} (hs : Gf2.wt s % 2 = 1) : (Golay.locate cfg s).isSome = true := by
  obtain ⟨r, hr⟩ : ∃ r : Vec23, r = Gf2.cat s (Gf2.zeros 11) := ⟨_, rfl⟩
  have hodd : Gf2.wt r % 2 = 1 := by
    rw [hr, Gf2.wt_cat, Gf2.wt_zeros]
    exact hs
  have hext : Golay.extend r = Gf2.cat s (Gf2.zeros 12) := by
    have hval : r.toNat = s.toNat := hr ▸ (toNat_cat s (Gf2.zeros 11)).trans (by simp [Gf2.zeros])
    refine BitVec.eq_of_toNat_eq ?_
    rw [Golay.extend, appendedBit, hodd, toNat_cat, toNat_cat, hval]
    simp [Gf2.zeros]
  have hsyn : Golay.syndrome cfg (Golay.extend r) = s := by
    rw [hext, Golay.syndrome_cat, Golay.syn2_zeros, BitVec.xor_zero]
  obtain ⟨m, hm, -⟩ := Golay.exists_decode_eq_ok h34 r
  rw [Option.isSome_iff_ne_none]
  intro hnone
  rw [← hsyn] at hnone
  rw [Golay.decode_of_locate_eq_none hnone] at hm
  cases hm

end

theorem countP_isSome_add_countP_isNone {α β : Type} (f : α → Option β) (l : List α) :
    l.countP (fun a => (f a).isSome) + l.countP (fun a => (f a).isNone) = l.length := by
  rw [List.length_eq_countP_add_countP fun a => (f a).isSome]
  simp only [Bool.decide_eq_true, Bool.not_eq_true, Option.isSome_eq_false_iff]

theorem countLocated_isSome_add_isNone (cfg : Config) :
    countLocated cfg (fun l => l.isSome) + countLocated cfg (fun l => l.isNone) = 4096 :=
  (countP_isSome_add_countP_isNone (fun s => Golay.locate cfg (BitVec.ofNat 12 s)) _).trans List.length_range

/-- Settles O49: each stage takes the errors of weight at most 3 of its place, whose number is a sum of products of
binomial coefficients; the 1771 syndromes left over are located by none. -/
theorem locatorCountsOverAllSyndromes : Obligations.LocatorCountsOverAllSyndromes := by
  have hcount := fun kind q [DecidableRel q] => countLocated_eq_lightErrorCount meetsR34_default kind q
  have hsome : countLocated defaultConfig (fun l => l.isSome) = 2325 :=
    (hcount _ (fun _ _ => True) (fun _ _ _ _ _ => by simp) rfl).trans (by decide +kernel)
  have htotal := countLocated_isSome_add_isNone defaultConfig
  rw [hsome] at htotal
  refine ⟨(hcount _ (fun _ hi => hi = 0) ?_ rfl).trans (by decide +kernel),
    (hcount _ (fun _ hi => hi = 1) ?_ rfl).trans (by decide +kernel),
    (hcount _ (fun lo hi => 2 ≤ hi ∧ lo = 0) ?_ rfl).trans (by decide +kernel),
    (hcount _ (fun lo hi => 2 ≤ hi ∧ lo = 1) ?_ rfl).trans (by decide +kernel),
    Nat.add_left_cancel (n := 2325) htotal, fun s => isSome_locate_of_odd meetsR34_default,
    by decide +kernel, by decide +kernel⟩
  all_goals
    intro st u lo hi htakes
    cases st <;> simp [Stage.Takes] at htakes ⊢ <;> omega

/-! Where several cases apply, they give the one error. -/

/-- The conditions of the four cases are one condition on the stages' patterns. -/
theorem exists_stage_of_mem_candidates {cfg : Config} {s : Vec12} {u : Vec24} (h : u ∈ candidates cfg s) :
    ∃ st : Stage, u = st.pattern cfg s ∧ Gf2.wt (st.pattern cfg s) ≤ 3 := by
  simp only [candidates, List.mem_append, List.mem_ite_nil_right, List.mem_singleton, List.mem_map, List.mem_filter,
    List.mem_finRange, true_and, decide_eq_true_iff] at h
  obtain ((⟨hA, rfl⟩ | ⟨k, hB, rfl⟩) | ⟨hC1, rfl⟩) | ⟨k, hC2, rfl⟩ := h
  · exact ⟨.a, rfl, (Stage.wt_pattern_a cfg s).trans_le hA⟩
  · exact ⟨.b k, rfl, (Stage.wt_pattern_b cfg s k).trans_le (Nat.succ_le_succ hB)⟩
  · exact ⟨.c1, rfl, (Stage.wt_pattern_c1 cfg s).trans_le hC1⟩
  · exact ⟨.c2 k, rfl, (Stage.wt_pattern_c2 cfg s k).trans_le (Nat.succ_le_succ hC2)⟩

/-- Each case contributes the patterns of its stages that are light enough. -/
theorem length_candidates (cfg : Config) (s : Vec12) :
    (candidates cfg s).length =
      (if Gf2.wt (Stage.a.pattern cfg s) ≤ 3 then 1 else 0) +
      (List.finRange 12).countP (fun k => decide (Gf2.wt ((Stage.b k).pattern cfg s) ≤ 3)) +
      (if Gf2.wt (Stage.c1.pattern cfg s) ≤ 3 then 1 else 0) +
      (List.finRange 12).countP (fun k => decide (Gf2.wt ((Stage.c2 k).pattern cfg s) ≤ 3)) := by
  simp [candidates, apply_ite List.length, List.countP_eq_length_filter, Nat.add_assoc, -Order.add_one_le_iff]

/-- A vector of weight 1 is one unit vector, and any other is none. -/
theorem countP_eq_unit (v : Vec12) :
    (List.finRange 12).countP (fun k => decide (v = Gf2.unit k)) = if Gf2.wt v = 1 then 1 else 0 := by
  split
  case isTrue h =>
    obtain ⟨j, rfl⟩ := Gf2.exists_eq_unit_of_wt_eq_one h
    revert j
    decide
  case isFalse h =>
    refine List.countP_eq_zero.2 fun k _ hk => h ?_
    rw [of_decide_eq_true hk, Gf2.wt_unit]

/-- What a stage knows of the error with halves `lo` and `hi` that it gives: one of the halves. -/
def Stage.Knows (lo hi : Vec12) : Stage → Prop
  | .a => hi = Gf2.zeros 12
  | .b k => hi = Gf2.unit k
  | .c1 => lo = Gf2.zeros 12
  | .c2 k => lo = Gf2.unit k

theorem Stage.knows_of_pattern_eq {cfg : Config} {s lo hi : Vec12} {st : Stage}
    (h : st.pattern cfg s = Gf2.cat lo hi) : st.Knows lo hi := by
  have hlow : Gf2.low (st.pattern cfg s) = lo := by rw [h, Gf2.low_cat]
  have hhigh : Gf2.high (st.pattern cfg s) = hi := by rw [h, Gf2.high_cat]
  cases st with
  | a => exact hhigh.symm.trans (high_patternA s)
  | b k => exact hhigh.symm.trans (high_patternB cfg s k)
  | c1 => exact hlow.symm.trans (low_patternC1 _)
  | c2 k => exact hlow.symm.trans (low_patternC2 cfg _ k)

theorem Stage.pattern_syndrome_of_knows {cfg : Config} (h34 : meetsR34 cfg) {lo hi : Vec12} {st : Stage}
    (h : st.Knows lo hi) : st.pattern cfg (Golay.syndrome cfg (Gf2.cat lo hi)) = Gf2.cat lo hi := by
  cases st with
  | a => obtain rfl := h; exact Stage.pattern_a_syndrome cfg lo
  | b k => obtain rfl := h; exact Stage.pattern_b_syndrome cfg lo k
  | c1 => obtain rfl := h; exact Stage.pattern_c1_syndrome h34 hi
  | c2 k => obtain rfl := h; exact Stage.pattern_c2_syndrome h34 hi k

section
variable {cfg : Config} (h34 : meetsR34 cfg)
include h34

theorem exists_light_of_mem_candidates {s : Vec12} {u : Vec24} (h : u ∈ candidates cfg s) :
    Gf2.wt u ≤ 3 ∧ Golay.syndrome cfg u = s := by
  obtain ⟨st, rfl, hw⟩ := exists_stage_of_mem_candidates h
  exact ⟨hw, Golay.syndrome_pattern h34 s st⟩

theorem candidates_agree {s : Vec12} {u u' : Vec24} (h : u ∈ candidates cfg s) (h' : u' ∈ candidates cfg s) :
    u = u' := by
  obtain ⟨hw, hs⟩ := exists_light_of_mem_candidates h34 h
  obtain ⟨hw', hs'⟩ := exists_light_of_mem_candidates h34 h'
  exact eq_of_syndrome_eq h34 (hs.trans hs'.symm) hw hw'

/-- Two rows that pass give two patterns of weight at most 3 for one syndrome, so they are one row. -/
theorem row_eq_of_wt_xor_rowB_le {x : Vec12} {j k : Fin 12} (hj : Gf2.wt (x ^^^ rowB cfg j) ≤ 2)
    (hk : Gf2.wt (x ^^^ rowB cfg k) ≤ 2) : j = k := by
  have hpattern : (Stage.b j).pattern cfg x = (Stage.b k).pattern cfg x :=
    eq_of_syndrome_eq h34 (by rw [Golay.syndrome_pattern h34, Golay.syndrome_pattern h34])
      (by rw [Stage.wt_pattern_b]; omega) (by rw [Stage.wt_pattern_b]; omega)
  have hhigh := congrArg Gf2.high hpattern
  rw [Stage.pattern, high_patternB, Stage.pattern, high_patternB] at hhigh
  exact Gf2.unit_injective hhigh

variable {lo hi : Vec12} (hw : Gf2.wt lo + Gf2.wt hi ≤ 3)
include hw

/-- A light error is the only light pattern for its syndrome, so a case applies when it knows the error. -/
theorem Stage.wt_pattern_syndrome_le_iff (st : Stage) :
    Gf2.wt (st.pattern cfg (Golay.syndrome cfg (Gf2.cat lo hi))) ≤ 3 ↔ st.Knows lo hi := by
  rw [← Gf2.wt_cat] at hw
  constructor
  · intro h
    exact Stage.knows_of_pattern_eq (eq_of_syndrome_eq h34 (Golay.syndrome_pattern h34 _ st) h hw)
  · intro h
    rwa [Stage.pattern_syndrome_of_knows h34 h]

/-- Cases A and B apply by the high half, cases C1 and C2 by the low half, each to weight 0 or 1, so two cases apply
where both halves have weight at most 1. -/
theorem two_le_length_candidates_iff :
    2 ≤ (candidates cfg (Golay.syndrome cfg (Gf2.cat lo hi))).length ↔ Gf2.wt lo ≤ 1 ∧ Gf2.wt hi ≤ 1 := by
  simp only [length_candidates, Stage.wt_pattern_syndrome_le_iff h34 hw, Stage.Knows, ← Gf2.wt_eq_zero_iff,
    countP_eq_unit]
  split_ifs <;> omega

end

/-- Settles O50: every candidate is a light error with the syndrome at hand, and there is at most one; the 169 syndromes
are those of the errors with at most one bit in each half. -/
theorem overlappingCasesAgree : Obligations.OverlappingCasesAgree := by
  refine ⟨fun cfg x j k h34 => row_eq_of_wt_xor_rowB_le h34, fun cfg s u u' h34 => candidates_agree h34, ?_⟩
  refine (countP_syndromes_eq_lightErrorCount meetsR34_default
    (fun s => decide (2 ≤ (candidates defaultConfig s).length)) (fun lo hi => lo ≤ 1 ∧ hi ≤ 1)
    (fun lo hi hw => ?_) fun s hs => ?_).trans (by decide +kernel)
  · rw [decide_eq_true_iff]
    exact two_le_length_candidates_iff meetsR34_default hw
  · obtain ⟨u, hu⟩ := List.exists_mem_of_length_pos (Nat.lt_of_lt_of_le Nat.two_pos (of_decide_eq_true hs))
    exact ⟨u, exists_light_of_mem_candidates meetsR34_default hu⟩

end Sys2Proof.Machine

/-! ### The weights of the codewords of the default B (10_state.md rule R34, 41_encoder.md rule R102 (f)) -/

namespace Sys2Proof.Machine

open Sys2Proof.Reference

/-- `f n`, with `n` brought to a numeral first: `onNumeral` for a count. -/
def countOnNumeral (f : Nat → Nat) : Nat → Nat
  | 0 => f 0
  | n + 1 => f (n + 1)

theorem countOnNumeral_eq (f : Nat → Nat) (n : Nat) : countOnNumeral f n = f n := by
  cases n <;> rfl

/-- How many sums of rows `j < k`, added to `acc`, pass a test: the walk of `allSums`, counting. -/
def countSums (rows : Nat → Nat) (test : Nat → Bool) : Nat → Nat → Nat
  | 0, acc => (test acc).toNat
  | k + 1, acc => Nat.add (countSums rows test k acc) (countOnNumeral (countSums rows test k) (acc ^^^ rows k))

theorem selectedRows_congr {rows : Nat → Nat} {f g : Nat → Bool} {k : Nat} (h : ∀ j, j < k → f j = g j) :
    selectedRows rows f k = selectedRows rows g k := by
  induction k with
  | zero => rfl
  | succ k ih =>
    rw [selectedRows, selectedRows, h k (Nat.lt_succ_self k), ih fun j hj => h j (Nat.lt_succ_of_lt hj)]

/-- The selections below `2 ^ (k + 1)` are those without row `k` and then those with it. -/
theorem countP_selectedRows_eq_countSums (rows : Nat → Nat) (test : Nat → Bool) (k acc : Nat) :
    (List.range (2 ^ k)).countP (fun m => test (acc ^^^ selectedRows rows m.testBit k)) =
      countSums rows test k acc := by
  induction k generalizing acc with
  | zero => cases h : test acc <;> simp [selectedRows, countSums, h]
  | succ k ih =>
    have hwithout : ∀ m ∈ List.range (2 ^ k),
        acc ^^^ selectedRows rows m.testBit (k + 1) = acc ^^^ selectedRows rows m.testBit k := by
      intro m hm
      rw [selectedRows, Nat.testBit_lt_two_pow (List.mem_range.1 hm)]
      simp
    have hwith : ∀ m ∈ List.range (2 ^ k), acc ^^^ selectedRows rows (2 ^ k + m).testBit (k + 1) =
        (acc ^^^ rows k) ^^^ selectedRows rows m.testBit k := by
      intro m hm
      rw [selectedRows, Nat.testBit_two_pow_add_eq, Nat.testBit_lt_two_pow (List.mem_range.1 hm),
        selectedRows_congr fun j hj => Nat.testBit_two_pow_add_gt hj m, Nat.xor_assoc, Nat.xor_comm (rows k)]
      rfl
    rw [Nat.pow_succ, Nat.mul_two, List.range_add, List.countP_append, List.countP_map, countSums,
      countOnNumeral_eq, ← ih, ← ih]
    congr 1
    · exact List.countP_congr fun m hm => by rw [hwithout m hm]
    · exact List.countP_congr fun m hm => by rw [Function.comp_apply, hwith m hm]

/-- The weights of the low bits of the 4096 extended codewords, counted by the walk. -/
theorem countP_packedWeight_extCodeword (bits n : Nat) :
    (List.range 4096).countP
        (fun m => packedWeight bits (extCodeword defaultConfig (BitVec.ofNat 12 m)).toNat == n) =
      countSums defaultRows (fun x => Nat.beq (packedWeight bits x) n) 12 0 := by
  rw [← countP_selectedRows_eq_countSums]
  refine List.countP_congr fun m hm => ?_
  rw [extCodeword_default, BitVec.toNat_ofNat, Nat.mod_eq_of_lt (List.mem_range.1 hm), Nat.zero_xor, beq_iff_eq,
    Nat.beq_eq]

/-- The codeword is the extended one without its last bit. -/
theorem wt_encode_eq_packedWeight (cfg : Config) (m : Vec12) :
    Gf2.wt (Golay.encode cfg m) = packedWeight 23 (extCodeword cfg m).toNat := by
  rw [← countTrue_testBit, Gf2.wt]
  exact congrArg (Gf2.countTrue 23) (funext fun i => (getLsbD_extCodeword cfg m i).symm)

theorem getLsbD_vecmat_matB_last (m : Vec12) : (Gf2.vecmat m (matB defaultConfig)).getLsbD 11 =
    decide (Gf2.wt (Golay.encode defaultConfig m) % 2 = 1) := by
  have hlast := congrArg (·.getLsbD 23) (evenExtend_encode meetsR34_default m)
  simp only [evenExtend, extCodeword, Gf2.getLsbD_cat] at hlast
  simpa using hlast.symm

/-- Settles O23: the default B meets R34, its last column makes the weights even, and the weights are counted by the
walk. -/
theorem defaultMatrixMeetsItsRequirements : Obligations.DefaultMatrixMeetsItsRequirements := by
  refine ⟨meetsR34_default, getLsbD_vecmat_matB_last, ?_⟩
  simp only [Gf2.wt_eq_packedWeight, countP_packedWeight_extCodeword]
  decide +kernel

/-- Settles O34: the weights are counted by the walk; the distance is that of the extended code less the last bit. -/
theorem codewordWeightsAndDistance : Obligations.CodewordWeightsAndDistance := by
  refine ⟨?_, fun m m' => seven_le_wt_encode_xor meetsR34_default, 0x001#12, 0x000#12, by decide, by decide +kernel⟩
  simp only [wt_encode_eq_packedWeight, countP_packedWeight_extCodeword]
  decide +kernel

end Sys2Proof.Machine

/-! ### The assembler reads what it writes (30_encoding.md rule R70) -/

namespace Sys2Proof.Machine

/-! A line that is two words with a blank between them. -/

/-- A character that neither separates tokens nor begins a comment. -/
def isPlain (c : Char) : Bool := c != ' ' && c != ';'

theorem isPlain_iff (c : Char) : isPlain c = true ↔ c ≠ ' ' ∧ c ≠ ';' := by
  simp [isPlain]

theorem splitBlanks_of_plain {t : List Char} (ht : ∀ c ∈ t, isPlain c = true) : splitBlanks t = [t] := by
  induction t with
  | nil => rfl
  | cons c t ih =>
    obtain ⟨hc, ht⟩ := List.forall_mem_cons.1 ht
    rw [splitBlanks, if_neg ((isPlain_iff c).1 hc).1, ih ht]

theorem splitBlanks_append_blank {t : List Char} (ht : ∀ c ∈ t, isPlain c = true) (u : List Char) :
    splitBlanks (t ++ ' ' :: u) = t :: splitBlanks u := by
  induction t with
  | nil => rfl
  | cons c t ih =>
    obtain ⟨hc, ht⟩ := List.forall_mem_cons.1 ht
    rw [List.cons_append, splitBlanks, if_neg ((isPlain_iff c).1 hc).1, ih ht]

section
variable {a b : List Char} (ha : ∀ c ∈ a, isPlain c = true) (hb : ∀ c ∈ b, isPlain c = true)
include ha hb

theorem takeWhile_two_words : (a ++ ' ' :: b).takeWhile (fun c => c != ';') = a ++ ' ' :: b := by
  refine List.takeWhile_eq_self_iff.2 fun c hc => bne_iff_ne.2 ?_
  rw [List.mem_append, List.mem_cons] at hc
  obtain hc | rfl | hc := hc
  · exact ((isPlain_iff c).1 (ha c hc)).2
  · decide
  · exact ((isPlain_iff c).1 (hb c hc)).2

theorem tokens_two_words (ha0 : a ≠ []) (hb0 : b ≠ []) : tokens (a ++ ' ' :: b) = [a, b] := by
  rw [tokens, takeWhile_two_words ha hb, splitBlanks_append_blank ha, splitBlanks_of_plain hb]
  simp [ha0, hb0]

theorem assemble_two_words (ha0 : a ≠ []) (hb0 : b ≠ []) : assemble (a ++ ' ' :: b) = assembleCommand a b := by
  rw [assemble, tokens_two_words ha hb ha0 hb0]

end

/-! A quoted bit string. -/

theorem isPlain_of_mem_quoted {n : Nat} {v : BitVec n} {c : Char} (hc : c ∈ quoted v) : isPlain c = true := by
  have hquote : isPlain quoteChar = true := by decide
  have hbit : ∀ b, isPlain (bitChar b) = true := by decide
  rw [quoted, List.mem_cons, List.mem_append, List.mem_singleton, toBitString, List.mem_map] at hc
  obtain rfl | ⟨i, -, rfl⟩ | rfl := hc
  · exact hquote
  · exact hbit _
  · exact hquote

theorem fromBitString_of_eq_toBitString {n : Nat} {t : List Char} {v : BitVec n} (h : t = toBitString v) :
    ∃ hlen : n = t.length, fromBitString t = .ok (v.cast hlen) := by
  subst h
  exact ⟨_, fromBitString_toBitString v⟩

theorem vecOperand_quoted {n : Nat} (v : BitVec n) : vecOperand n (quoted v) = .ok v := by
  obtain ⟨hlen, hread⟩ := fromBitString_of_eq_toBitString (v := v) (List.dropLast_concat (b := quoteChar))
  rw [quoted, vecOperand, if_pos rfl]
  simp only [List.getLast?_append, List.getLast?_singleton, Option.some_or, ne_eq, not_true_eq_false, if_false, hread]
  rw [dif_pos hlen.symm]
  rfl

/-! A hexadecimal number. -/

theorem hexValueFrom_append (acc : Nat) (xs ys : List Char) :
    hexValueFrom acc (xs ++ ys) = (hexValueFrom acc xs).bind fun a => hexValueFrom a ys := by
  induction xs generalizing acc with
  | nil => rfl
  | cons c xs ih =>
    rw [List.cons_append, hexValueFrom, hexValueFrom]
    cases hexDigits.idxOf? c with
    | none => rfl
    | some d => exact ih _

theorem idxOf?_hexDigit {d : Nat} (hd : d < 16) : hexDigits.idxOf? (hexDigits.getD d '0') = some d := by
  have h : ∀ d : Fin 16, hexDigits.idxOf? (hexDigits.getD d '0') = some d.val := by decide
  exact h ⟨d, hd⟩

/-- Reading the low `k` digits of `v` puts them after what was read before. -/
theorem hexValueFrom_hexText (k acc v : Nat) :
    hexValueFrom acc (hexText k v) = some (acc * 16 ^ k + v % 16 ^ k) := by
  induction k generalizing v with
  | zero => simp [hexText, hexValueFrom, Nat.mod_one]
  | succ k ih =>
    rw [hexText, hexValueFrom_append, ih]
    simp only [Option.bind_some, hexValueFrom, idxOf?_hexDigit (Nat.mod_lt v (by decide : 0 < 16))]
    rw [Nat.pow_succ, Nat.mul_comm (16 ^ k) 16, Nat.mod_mul]
    ring_nf

theorem length_hexText (k v : Nat) : (hexText k v).length = k := by
  induction k generalizing v with
  | zero => rfl
  | succ k ih => rw [hexText, List.length_append, ih, List.length_singleton]

theorem mem_hexDigits_of_mem_hexText {k v : Nat} {c : Char} (hc : c ∈ hexText k v) : c ∈ hexDigits := by
  induction k generalizing v with
  | zero => cases hc
  | succ k ih =>
    rw [hexText, List.mem_append, List.mem_singleton] at hc
    obtain hc | rfl := hc
    · exact ih hc
    · have hlt : v % 16 < hexDigits.length := Nat.mod_lt v (by decide)
      rw [List.getD_eq_getElem _ _ hlt]
      exact List.getElem_mem hlt

theorem isPlain_of_mem_hexDigits {c : Char} (hc : c ∈ hexDigits) : isPlain c = true := by
  have h : hexDigits.all isPlain = true := by decide
  exact List.all_eq_true.1 h c hc

theorem vecOperand_hexText (w : Word) : vecOperand 32 ('0' :: 'x' :: hexText 8 w.toNat) = .ok w := by
  have hne : hexText 8 w.toNat ≠ [] := List.ne_nil_of_length_pos (by rw [length_hexText]; decide)
  have hpow : 16 ^ 8 = 2 ^ 32 := by decide
  have hval : hexValue (hexText 8 w.toNat) = some w.toNat := by
    rw [hexValue, if_neg hne, hexValueFrom_hexText, Nat.zero_mul, Nat.zero_add, hpow,
      Nat.mod_eq_of_lt w.isLt]
  rw [vecOperand, if_neg (by decide)]
  simp [hval, w.isLt]

/-! The text of an instruction. -/

theorem asmText_enc (m : Vec12) : asmText (.enc 0#12 m) = textEnc ++ ' ' :: quoted m := rfl

theorem asmText_syn (w : Vec24) : asmText (.syn w) = textSyn ++ ' ' :: quoted w := rfl

theorem asmText_dec (r : Vec23) : asmText (.dec 0#1 r) = textDec ++ ' ' :: quoted r := rfl

theorem asmText_of_illFormed {i : Instr} (h : i.wellFormed = false) :
    asmText i = textWord ++ ' ' :: '0' :: 'x' :: hexText 8 (Sys2Proof.encode i).toNat := by
  unfold asmText
  rw [if_neg (by simp [h])]
  rfl

theorem isPlain_of_mem_mnemonic {mnemonic : List Char} (h : mnemonic ∈ [textEnc, textSyn, textDec, textWord]) :
    (∀ c ∈ mnemonic, isPlain c = true) ∧ mnemonic ≠ [] := by
  have hall : [textEnc, textSyn, textDec, textWord].all (fun t => t.all isPlain && !t.isEmpty) = true := by decide
  simpa using List.all_eq_true.1 hall mnemonic h

theorem assemble_quoted {n : Nat} {mnemonic : List Char} (h : mnemonic ∈ [textEnc, textSyn, textDec, textWord])
    (v : BitVec n) : assemble (mnemonic ++ ' ' :: quoted v) = assembleCommand mnemonic (quoted v) := by
  obtain ⟨hplain, hne⟩ := isPlain_of_mem_mnemonic h
  exact assemble_two_words hplain (fun _ => isPlain_of_mem_quoted) hne (List.cons_ne_nil _ _)

theorem assemble_word (w : Word) :
    assemble (textWord ++ ' ' :: '0' :: 'x' :: hexText 8 w.toNat) = .ok w := by
  obtain ⟨hplain, hne⟩ := isPlain_of_mem_mnemonic (mnemonic := textWord) (by decide)
  have hoperand : ∀ c ∈ '0' :: 'x' :: hexText 8 w.toNat, isPlain c = true := by
    rw [List.forall_mem_cons, List.forall_mem_cons]
    exact ⟨by decide, by decide,
      fun c hc => isPlain_of_mem_hexDigits (mem_hexDigits_of_mem_hexText hc)⟩
  rw [assemble_two_words hplain hoperand hne (List.cons_ne_nil _ _), assembleCommand, if_neg (by decide),
    if_neg (by decide), if_neg (by decide), if_pos rfl, vecOperand_hexText]

/-- Settles O30: a well-formed instruction is its mnemonic and its quoted operand, an ill-formed one is its word. -/
theorem assemblerReadsWhatItWrites : Obligations.AssemblerReadsWhatItWrites := by
  intro i
  cases hw : i.wellFormed with
  | false => rw [asmText_of_illFormed hw, assemble_word]
  | true =>
    cases i with
    | enc z m =>
      obtain rfl := (Instr.wellFormed_enc z m).1 hw
      rw [asmText_enc, assemble_quoted (by decide), assembleCommand, if_pos rfl, vecOperand_quoted]
      rfl
    | syn w =>
      rw [asmText_syn, assemble_quoted (by decide), assembleCommand, if_neg (by decide), if_pos rfl, vecOperand_quoted]
      rfl
    | dec z r =>
      obtain rfl := (Instr.wellFormed_dec z r).1 hw
      rw [asmText_dec, assemble_quoted (by decide), assembleCommand, if_neg (by decide), if_neg (by decide),
        if_pos rfl, vecOperand_quoted]
      rfl

end Sys2Proof.Machine
